-- ==== Sys2Proof/Word.lean ====
section
/-! DEFINITION. The word types of the block (00_scope.md rule R11): every value is unsigned. -/

namespace Sys2Proof

/-- `u8`: a register, a buffer byte, a command code. -/
abbrev Byte := BitVec 8

/-- `u16`: CRC, TXLEN and RXLEN (10_state.md rules R30, R31, R32). -/
abbrev Half := BitVec 16

/-- `u4`: the STATUS.OUTCOME field (10_state.md rules R24, R40). -/
abbrev Nibble := BitVec 4

end Sys2Proof
end

