-- ==== Sys2Proof/Syntax.lean ====
section
/-! DEFINITION. The commands of the block: one constructor per row of spec/opcode_table.json. -/

namespace Sys2Proof

/-- A command, as the byte written to CMD selects it (30_encoding.md rules R70 and R71).
A command has no operand fields.
The table splits the reserved codes 0x05..0xFF into seven rows, each named here by its lowest code; a row of more than
one code carries the whole `CODE` byte, which rule R70 calls the command's one field. -/
inductive Instr where
  /-- 0x00 (rule R120). -/
  | nop
  /-- 0x01 (rule R110). -/
  | crcInit
  /-- 0x02 (rule R111). -/
  | crcByte
  /-- 0x03 (rules R130 to R135). -/
  | encode
  /-- 0x04 (rules R140 to R155). -/
  | decode
  /-- 0x05, reserved (rule R160). -/
  | reserved05
  /-- 0x06..0x07, reserved (rule R160). -/
  | reserved06 (code : Byte)
  /-- 0x08..0x0F, reserved (rule R160). -/
  | reserved08 (code : Byte)
  /-- 0x10..0x1F, reserved (rule R160). -/
  | reserved10 (code : Byte)
  /-- 0x20..0x3F, reserved (rule R160). -/
  | reserved20 (code : Byte)
  /-- 0x40..0x7F, reserved (rule R160). -/
  | reserved40 (code : Byte)
  /-- 0x80..0xFF, reserved (rule R160). -/
  | reserved80 (code : Byte)
deriving DecidableEq, Repr

end Sys2Proof
end

