-- ==== Sys2Proof/WellFormed.lean ====
section
/-! DEFINITION. Which terms of Instr stand for a command: the code a reserved command carries lies in its own row. -/

namespace Sys2Proof

/-- The code matches a row of the opcode table: `code & mask = pattern`. -/
def codeInRow (mask pattern code : Byte) : Bool := code &&& mask == pattern

/-- The mask and the pattern of a command's row, as spec/opcode_table.json gives them (30_encoding.md rule R71:
"Match is the whole byte (mask 0xFF)" for the defined commands; the reserved range is split into aligned rows). -/
def Instr.row : Instr → Byte × Byte
  | .nop => (0xFF#8, 0x00#8)
  | .crcInit => (0xFF#8, 0x01#8)
  | .crcByte => (0xFF#8, 0x02#8)
  | .encode => (0xFF#8, 0x03#8)
  | .decode => (0xFF#8, 0x04#8)
  | .reserved05 => (0xFF#8, 0x05#8)
  | .reserved06 _ => (0xFE#8, 0x06#8)
  | .reserved08 _ => (0xF8#8, 0x08#8)
  | .reserved10 _ => (0xF0#8, 0x10#8)
  | .reserved20 _ => (0xE0#8, 0x20#8)
  | .reserved40 _ => (0xC0#8, 0x40#8)
  | .reserved80 _ => (0x80#8, 0x80#8)

/-- A command is well formed when the code it carries, if any, is a code of its row. -/
def Instr.wellFormed (i : Instr) : Bool :=
  match i with
  | .nop | .crcInit | .crcByte | .encode | .decode | .reserved05 => true
  | .reserved06 c | .reserved08 c | .reserved10 c | .reserved20 c | .reserved40 c | .reserved80 c =>
    codeInRow i.row.1 i.row.2 c

end Sys2Proof
end

