-- ==== Sys2Proof/Decode.lean ====
section
/-! DEFINITION. Decoding a command byte (30_encoding.md rules R70 to R72), and the encoder, from the same table. -/

namespace Sys2Proof

/-- The command a byte written to CMD selects. Every byte selects one: the codes without a command of their own are
the reserved ones (30_encoding.md rules R71 and R72), row by row as spec/opcode_table.json splits them. -/
def decodeByte (b : Byte) : Instr :=
  if codeInRow 0xFF#8 0x00#8 b then .nop
  else if codeInRow 0xFF#8 0x01#8 b then .crcInit
  else if codeInRow 0xFF#8 0x02#8 b then .crcByte
  else if codeInRow 0xFF#8 0x03#8 b then .encode
  else if codeInRow 0xFF#8 0x04#8 b then .decode
  else if codeInRow 0xFF#8 0x05#8 b then .reserved05
  else if codeInRow 0xFE#8 0x06#8 b then .reserved06 b
  else if codeInRow 0xF8#8 0x08#8 b then .reserved08 b
  else if codeInRow 0xF0#8 0x10#8 b then .reserved10 b
  else if codeInRow 0xE0#8 0x20#8 b then .reserved20 b
  else if codeInRow 0xC0#8 0x40#8 b then .reserved40 b
  else .reserved80 b

/-- Why a sequence of bytes is no command. -/
inductive DecodeError where
  /-- There is no byte to decode (rule R70: a command is one byte). -/
  | noCommandByte
deriving DecidableEq, Repr

/-- Decode the first command of a sequence of bytes and return the bytes after it: there is one command length, one
byte (30_encoding.md rules R70 and R81). -/
def decodeBytes : List Byte → Except DecodeError (Instr × List Byte)
  | [] => .error .noCommandByte
  | b :: rest => .ok (decodeByte b, rest)

/-- The byte of a command (30_encoding.md rule R71). -/
def encode : Instr → Byte
  | .nop => 0x00#8
  | .crcInit => 0x01#8
  | .crcByte => 0x02#8
  | .encode => 0x03#8
  | .decode => 0x04#8
  | .reserved05 => 0x05#8
  | .reserved06 c => c
  | .reserved08 c => c
  | .reserved10 c => c
  | .reserved20 c => c
  | .reserved40 c => c
  | .reserved80 c => c

/-- The command byte of a table word of `nbits` bits: the bits at and above `nbits` are 0. -/
def tableByte (nbits w : Nat) : Byte := BitVec.ofNat 8 (w % 2 ^ nbits)

/-- What the decoder reads from a word numbered as spec/opcode_table.json numbers it (one byte, bit 0 the least). -/
def decodeTableWord (nbits w : Nat) : Option Instr :=
  match decodeBytes [tableByte nbits w] with
  | .ok (i, _) => some i
  | .error _ => none

end Sys2Proof
end

