-- ==== Sys2Proof/Config.lean ====
section
/-! DEFINITION. The implementation parameters of 00_scope.md rule R9, each at the value the spec gives it. -/

namespace Sys2Proof.Config

/-- `CRC_SEED`. There is no final XOR (rule R9: `CRC_FINAL_XOR` none), so it has no constant here. -/
@[simp] abbrev crcSeed : Half := 0xFFFF#16

/-- `CRC_POLY_REFLECTED`. -/
@[simp] abbrev crcPoly : Half := 0xA001#16

/-- `ADDR_MIN`. -/
@[simp] abbrev addrMin : Nat := 1

/-- `ADDR_MAX`: 127, not the Modbus standard's 247 (00_scope.md rule R10). -/
@[simp] abbrev addrMax : Nat := 127

/-- `MAX_FRAME`. -/
@[simp] abbrev maxFrame : Nat := 256

/-- The address, function code and two CRC bytes around a payload; also `MIN_FRAME_LEN`. -/
@[simp] abbrev frameOverhead : Nat := 4

/-- `MAX_PAYLOAD` = `MAX_FRAME - 4`. -/
@[simp] abbrev maxPayload : Nat := 252

/-- `MIN_DECODE_LEN`. -/
@[simp] abbrev minDecodeLen : Nat := 5

/-- `FC_RHR`, ReadHoldingRegisters. -/
@[simp] abbrev fcReadHolding : Byte := 0x03#8

/-- `FC_WSC`, WriteSingleCoil. -/
@[simp] abbrev fcWriteCoil : Byte := 0x05#8

/-- `WSC_FRAME_LEN`. -/
@[simp] abbrev wscFrameLen : Nat := 8

/-- `TXBUF_SIZE` and `RXBUF_SIZE`. -/
@[simp] abbrev bufferSize : Nat := 256

/-- The register space holds the 10-bit offsets 0x000..0x3FF (20_memory.md rule R50). -/
@[simp] abbrev offsetSpace : Nat := 0x400

/-- `MBRTU_BASE` (20_memory.md rules R50 and R54): where the platform puts the block in the host's address map.
It is the platform's choice, so it has no body, and no rule of the block and no definition of the model reads it. -/
opaque mbrtuBase : Nat

end Sys2Proof.Config
end

