-- ==== Sys2Proof/Machine/State.lean ====
section
/-! DEFINITION. The state of the block (10_state.md rule R40), the model's host port, the faults and the refusals. -/

namespace Sys2Proof.Machine

/-- The two frame buffers (10_state.md rules R35 and R36). -/
inductive BufferName where
  | tx
  | rx
deriving DecidableEq, Repr

/-- The contents of a frame buffer: the bytes that hold a value, by rising index. An index that is not listed holds ⊥
("no value", 10_state.md rule R36). -/
abbrev Memory := List Host.Cell

/-- The widths of a host access that are no part of the interface (20_memory.md rule R51). -/
inductive WideWidth where
  | bits16
  | bits32
  | bits64
deriving DecidableEq, Repr

/-- `ModelFault` (00_scope.md rule R13): the reasons for which a run is faulted. Each is safe: the model stops where a
block would go on in a way the spec does not give. -/
inductive Fault where
  /-- `UnwrittenByte` (00_scope.md rule R14, 93_implementation_defined.md I2): a read of a buffer byte that nothing has
  written since reset. Raised by a host read of that byte and by ENCODE and DECODE. Safe. -/
  | unwrittenByte (buf : BufferName) (i : Nat)
  /-- A host access wider than one byte, as 60_exceptions.md rule R177 records it in the sticky field; the step itself
  refuses it (`Refusal.wideAccess`). Raised by a step from a state that already records it. Safe. -/
  | wideAccess (width : WideWidth)
  /-- A host access at an offset outside 0x000..0x3FF, which does not reach the block (20_memory.md rule R54). Raised by
  a host read and a host write. Safe. -/
  | outsideRegisterSpace (off : Nat)
deriving DecidableEq, Repr

/-- What the model gives no meaning. -/
inductive Refusal where
  /-- Raised by an arm of exec whose command has no meaning yet; no arm does so. Safe. -/
  | notModelled (mnemonic : String)
  /-- Raised by a step that meets a host access wider than one byte (20_memory.md rule R51: "a model refuses it"). Safe. -/
  | wideAccess (width : WideWidth)
deriving DecidableEq, Repr

/-- The model fault that 60_exceptions.md rule R177 records for a refused access. -/
def Refusal.recorded : Refusal → Option Fault
  | .notModelled _ => none
  | .wideAccess w => some (.wideAccess w)

/-- The tags of STATUS.OUTCOME (10_state.md rule R24). -/
inductive OutcomeTag where
  | none
  | success
  | timeout
  | malformed
  | checksumMismatch
  | addressMismatch
  | transportError
  | invalidArgument
deriving DecidableEq, Repr

/-- The reasons REASON names (10_state.md rule R25). -/
inductive Reason where
  | none
  | tooShort
  | unexpectedFunction
  | lengthMismatch
  | unknownValue
  | addressOutOfRange
  | functionNotSupported
  | payloadTooLong
  | receivedTooLong
  | reservedCommand
deriving DecidableEq, Repr

/-- What stands at an offset of the register space (10_state.md rule R22). -/
inductive Location where
  | cmd
  | status
  | reason
  | addr
  | func
  | plen
  | data
  | crcLo
  | crcHi
  | txlenLo
  | txlenHi
  | rxlenLo
  | rxlenHi
  | nreg
  | txbuf (i : Nat)
  | rxbuf (i : Nat)
  | reserved
deriving DecidableEq, Repr

/-- One event at the block's port: a host access, or the reset input. -/
inductive BusEvent where
  /-- `MemRead(off, 1)` (20_memory.md rule R52). -/
  | read (off : Nat)
  /-- `MemWrite(off, 1, v)` (20_memory.md rule R53). -/
  | write (off : Nat) (value : Byte)
  /-- A host access of 16, 32 or 64 bits (20_memory.md rule R51). -/
  | wide (off : Nat) (width : WideWidth)
  /-- The reset input (70_reset_and_hazards.md rule R190). -/
  | reset
deriving DecidableEq, Repr

/-- The record of 10_state.md rule R40, and the model's own fields: its host port (`pending`, `readData`) and `decoded`. -/
structure State where
  /-- STATUS[3:0], `OUTCOME` (rule R24). -/
  status : Nibble
  /-- REASON (rule R25). -/
  reason : Byte
  /-- ADDR (rule R26). -/
  addr : Byte
  /-- FUNC (rule R27). -/
  func : Byte
  /-- PLEN (rule R28). -/
  plen : Byte
  /-- DATA (rule R29). -/
  data : Byte
  /-- The CRC accumulator, CRC_HI : CRC_LO (rule R30). -/
  crc : Half
  /-- TXLEN_HI : TXLEN_LO (rule R32). -/
  txlen : Half
  /-- RXLEN_HI : RXLEN_LO (rule R31). -/
  rxlen : Half
  /-- NREG (rule R33). -/
  nreg : Byte
  /-- TXBUF, by index 0..255 (rule R35). -/
  txbuf : Memory
  /-- RXBUF, by index 0..255 (rule R36). -/
  rxbuf : Memory
  /-- The sticky model fault (rule R40, 60_exceptions.md rule R177); no hardware state. -/
  fault : Option Fault
  /-- The model's own: the events still to come at the port, in the host's program order (20_memory.md rule R61). -/
  pending : List BusEvent
  /-- The model's own: the byte that the last host read returned. -/
  readData : Option Byte
  /-- The model's own: the last DECODE finished with SUCCESS, and since then no host write has gone to RXBUF or RXLEN and
  the block has not been reset. It says whether the views of rule R37 are defined (60_exceptions.md rule R172); no host
  access and no command reads it. -/
  decoded : Bool
deriving DecidableEq, Repr

/-- The state right after reset (70_reset_and_hazards.md rules R190 and R191). -/
def State.reset : State where
  status := 0#4
  reason := 0x00#8
  addr := 0x00#8
  func := 0x00#8
  plen := 0x00#8
  data := 0x00#8
  crc := Config.crcSeed
  txlen := 0x0000#16
  rxlen := 0x0000#16
  nreg := 0x00#8
  txbuf := []
  rxbuf := []
  fault := none
  pending := []
  readData := none
  decoded := false

end Sys2Proof.Machine
end

