-- ==== Sys2Proof/Machine/Flags.lean ====
section
/-! DEFINITION. The block's only flags, STATUS.OUTCOME and REASON (10_state.md rule R38): their codes. -/

namespace Sys2Proof.Machine

/-- The code of an outcome in STATUS[3:0] (10_state.md rule R24). -/
@[simp] def OutcomeTag.code : OutcomeTag → Nibble
  | .none => 0x0#4
  | .success => 0x1#4
  | .timeout => 0x2#4
  | .malformed => 0x3#4
  | .checksumMismatch => 0x4#4
  | .addressMismatch => 0x5#4
  | .transportError => 0x6#4
  | .invalidArgument => 0x7#4

/-- The code of a reason in REASON (10_state.md rule R25). -/
@[simp] def Reason.code : Reason → Byte
  | .none => 0x00#8
  | .tooShort => 0x01#8
  | .unexpectedFunction => 0x02#8
  | .lengthMismatch => 0x03#8
  | .unknownValue => 0x04#8
  | .addressOutOfRange => 0x11#8
  | .functionNotSupported => 0x12#8
  | .payloadTooLong => 0x13#8
  | .receivedTooLong => 0x14#8
  | .reservedCommand => 0x15#8

end Sys2Proof.Machine
end

