-- ==== Sys2Proof/Machine/Ops.lean ====
section
/-! DEFINITION. The operations shared by the commands: bytes of a buffer, halves of a 16-bit value, the CRC function,
and `finish`, the block's only way to report an outcome. -/

namespace Sys2Proof.Machine

/-! ## Frame buffers -/

/-- Byte `k` of a buffer, or `none` for ⊥ (10_state.md rule R36). -/
def Memory.read : Memory → Nat → Option Byte
  | [], _ => none
  | (a, v) :: m, k => if a = k then some v else Memory.read m k

/-- Store `v` at byte `k`, keeping the bytes listed by rising index. -/
def Memory.write : Memory → Nat → Byte → Memory
  | [], k, v => [(k, v)]
  | (a, w) :: m, k, v =>
    if k < a then (k, v) :: (a, w) :: m
    else if k = a then (k, v) :: m
    else (a, w) :: Memory.write m k v

/-- The canonical form: indices strictly rising. (A listed byte always holds a value, and an unlisted one holds none, so
no entry can equal what an unlisted index reads as.) -/
abbrev Memory.wf (m : Memory) : Prop := m.Pairwise (fun c d => c.1 < d.1)

/-- Every listed index is one of the buffer's 256 (10_state.md rules R35 and R36). -/
abbrev Memory.inBuffer (m : Memory) : Prop := ∀ c ∈ m, c.1 < Config.bufferSize

/-- The `n` bytes from byte `i` on, read in rising order, or the index of the first one that holds ⊥. -/
def Memory.readBytes (m : Memory) : Nat → Nat → Except Nat (List Byte)
  | _, 0 => .ok []
  | i, n + 1 =>
    match m.read i with
    | none => .error i
    | some b =>
      match m.readBytes (i + 1) n with
      | .ok bs => .ok (b :: bs)
      | .error j => .error j

/-- A buffer by its name. -/
def State.buffer (s : State) : BufferName → Memory
  | .tx => s.txbuf
  | .rx => s.rxbuf

/-- `rd(buf, i)` (00_scope.md rule R14): the only way a byte of a buffer is read. -/
def State.rd (s : State) (buf : BufferName) (i : Nat) : Except Fault Byte :=
  match (s.buffer buf).read i with
  | some v => .ok v
  | none => .error (.unwrittenByte buf i)

/-- `[rd(buf, i + k) for k in 0 .. n - 1]`, as ENCODE and DECODE read (41_frame_codec.md rules R133 and R152). -/
def State.rdRange (s : State) (buf : BufferName) (i n : Nat) : Except Fault (List Byte) :=
  match (s.buffer buf).readBytes i n with
  | .ok bs => .ok bs
  | .error j => .error (.unwrittenByte buf j)

/-! ## Halves of a 16-bit value -/

/-- `v[7:0]`. -/
def lowByte (v : Half) : Byte := v.extractLsb' 0 8

/-- `v[15:8]`. -/
def highByte (v : Half) : Byte := v.extractLsb' 8 8

/-- `hi : lo`, the 16-bit value `hi · 256 + lo` (00_scope.md rule R11, 30_encoding.md rule R79). -/
def joinBytes (hi lo : Byte) : Half := hi ++ lo

/-! ## The CRC function -/

/-- `crc_bit` (40_crc.md rule R102). -/
def crcBit (c : Half) : Half :=
  if c.getLsbD 0 then (c >>> 1) ^^^ Config.crcPoly else c >>> 1

/-- `crc_bit`, `n` times. -/
def crcBits : Nat → Half → Half
  | 0, c => c
  | n + 1, c => crcBits n (crcBit c)

/-- `crc_byte` (40_crc.md rule R101). -/
def crcByte (c : Half) (b : Byte) : Half := crcBits 8 (c ^^^ b.setWidth 16)

/-- `crc16` (40_crc.md rule R100): from the seed, byte by byte in sequence order, with no final step. -/
def crc16 (bs : List Byte) : Half := bs.foldl crcByte Config.crcSeed

/-! ## Reporting an outcome -/

/-- `finish(OUTCOME, REASON_CODE)` (00_scope.md rule R13): the block takes no trap and no interrupt (60_exceptions.md
rules R170 and R175), so this is all that an error does: it writes STATUS and REASON together. -/
def finish (o : OutcomeTag) (r : Reason) (s : State) : State :=
  { s with status := o.code, reason := r.code }

/-- A command whose argument is bad: `finish(INVALID_ARGUMENT, code)`. -/
def rejectArgument (r : Reason) (s : State) : State := finish .invalidArgument r s

/-- Write down in the sticky field why a run stopped (10_state.md rule R40, 60_exceptions.md rule R177): nothing else of
the state changes (41_frame_codec.md rules R133 and R152). -/
def recordStop (s : State) : Host.Outcome State Fault Refusal → State
  | .next t => t
  | .fault f => { s with fault := some f }
  | .refused r =>
    match r.recorded with
    | some f => { s with fault := some f }
    | none => s

/-- The block after its reset input (70_reset_and_hazards.md rule R190): every register and buffer byte at its reset
value, whatever it held before. The host's own accesses still to come and the byte it last read are not the block's, and
the sticky model fault is never cleared (10_state.md rule R40). -/
def resetBlock (s : State) : State :=
  { State.reset with fault := s.fault, pending := s.pending, readData := s.readData }

end Sys2Proof.Machine
end

