-- ==== Sys2Proof/Machine/Operands.lean ====
section
/-! DEFINITION. The operand forms: the register map behind the host's accesses, the fields of a frame, and the views of
a decoded frame. -/

namespace Sys2Proof.Machine

/-! ## The register map -/

/-- The registers below 0x100 (10_state.md rules R22 and R34). -/
def registerAt : Nat → Location
  | 0x000 => .cmd
  | 0x001 => .status
  | 0x002 => .reason
  | 0x003 => .addr
  | 0x004 => .func
  | 0x005 => .plen
  | 0x006 => .data
  | 0x008 => .crcLo
  | 0x009 => .crcHi
  | 0x00A => .txlenLo
  | 0x00B => .txlenHi
  | 0x00C => .rxlenLo
  | 0x00D => .rxlenHi
  | 0x00E => .nreg
  | _ => .reserved

/-- What stands at an offset (10_state.md rule R22), or `none` outside 0x000..0x3FF (20_memory.md rules R50 and R54). -/
def locate (off : Nat) : Option Location :=
  if off < 0x100 then some (registerAt off)
  else if off < 0x200 then some (.txbuf (off - 0x100))
  else if off < 0x300 then some (.rxbuf (off - 0x200))
  else if off < Config.offsetSpace then some .reserved
  else none

/-- The byte a host read of a location returns (20_memory.md rule R52). -/
def readLocation (l : Location) (s : State) : Except Fault Byte :=
  match l with
  | .cmd => .ok 0x00#8
  | .status => .ok (s.status.setWidth 8)
  | .reason => .ok s.reason
  | .addr => .ok s.addr
  | .func => .ok s.func
  | .plen => .ok s.plen
  | .data => .ok s.data
  | .crcLo => .ok (lowByte s.crc)
  | .crcHi => .ok (highByte s.crc)
  | .txlenLo => .ok (lowByte s.txlen)
  | .txlenHi => .ok (highByte s.txlen)
  | .rxlenLo => .ok (lowByte s.rxlen)
  | .rxlenHi => .ok (highByte s.rxlen)
  | .nreg => .ok s.nreg
  | .txbuf i => s.rd .tx i
  | .rxbuf i => s.rd .rx i
  | .reserved => .ok 0x00#8

/-- The state after a host write to a location that is not CMD (20_memory.md rule R53): the read-only registers and the
reserved offsets ignore it. CMD stores nothing (10_state.md rule R23); that the write to it runs a command is `hostWrite`.
A write to RXLEN or RXBUF ends the views of the last DECODE (10_state.md rule R37, 70_reset_and_hazards.md rule R203). -/
def writeLocation (l : Location) (v : Byte) (s : State) : State :=
  match l with
  | .addr => { s with addr := v }
  | .func => { s with func := v }
  | .plen => { s with plen := v }
  | .data => { s with data := v }
  | .rxlenLo => { s with rxlen := joinBytes (highByte s.rxlen) v, decoded := false }
  | .rxlenHi => { s with rxlen := joinBytes v (lowByte s.rxlen), decoded := false }
  | .txbuf i => { s with txbuf := s.txbuf.write i v }
  | .rxbuf i => { s with rxbuf := s.rxbuf.write i v, decoded := false }
  | .cmd => s
  | .status => s
  | .reason => s
  | .crcLo => s
  | .crcHi => s
  | .txlenLo => s
  | .txlenHi => s
  | .nreg => s
  | .reserved => s

/-! ## The fields of a frame (20_memory.md rules R58 and R59, 30_encoding.md rules R73 and R79) -/

/-- The function code is one of the two the block supports (00_scope.md rule R3). -/
def isSupportedFunction (f : Byte) : Bool := f == Config.fcReadHolding || f == Config.fcWriteCoil

/-- Byte `i` of a frame. The commands ask only for bytes the frame has; the 0 past its end is never used. -/
def frameByte (r : List Byte) (i : Nat) : Byte := r.getD i 0x00#8

/-- Everything but the trailing two CRC bytes: what the CRC is computed over (30_encoding.md rule R73). -/
def frameBody (r : List Byte) : List Byte := r.take (r.length - 2)

/-- The received CRC: the last byte is its high byte (20_memory.md rule R58). -/
def receivedCrc (r : List Byte) : Half := joinBytes (frameByte r (r.length - 1)) (frameByte r (r.length - 2))

/-- The bytes of a buffer from `i` to `i + n - 1`, if they all hold values. -/
def Memory.slice (m : Memory) (i n : Nat) : Option (List Byte) :=
  match m.readBytes i n with
  | .ok bs => some bs
  | .error _ => none

/-- The consecutive 16-bit values of a payload, high byte first (20_memory.md rule R59). -/
def registerValues : List Byte → List Half
  | hi :: lo :: rest => joinBytes hi lo :: registerValues rest
  | _ => []

/-! ## Views: functions of the buffers, defined after a SUCCESS -/

/-- The frame to send, TXBUF[0..TXLEN-1] (10_state.md rule R32). -/
def State.frameToSend (s : State) : Option (List Byte) := s.txbuf.slice 0 s.txlen.toNat

/-- The function code of the frame whose views are defined, RXBUF[1], or `none` where no view is: before the first DECODE,
after a DECODE of another outcome than SUCCESS (60_exceptions.md rule R172), and once the host has written RXBUF or RXLEN
(10_state.md rule R37, 70_reset_and_hazards.md rule R203). -/
def State.decodedFunction (s : State) : Option Byte := if s.decoded then s.rxbuf.read 1 else none

/-- `PAYLOAD` = RXBUF[2..L-3] (10_state.md rule R37), where the views are defined. -/
def State.payloadView (s : State) : Option (List Byte) :=
  match s.decodedFunction with
  | some _ => s.rxbuf.slice 2 (s.rxlen.toNat - Config.frameOverhead)
  | none => none

/-- `REGS[i]` = RXBUF[3+2i] : RXBUF[4+2i] for `i` in 0..NREG-1 (10_state.md rule R37), where the views are defined, for
function 0x03. -/
def State.registersView (s : State) : Option (List Half) :=
  if s.decodedFunction = some Config.fcReadHolding then (s.rxbuf.slice 3 (2 * s.nreg.toNat)).map registerValues else none

/-- The echoed payload RXBUF[2..5] = `[addrHi, addrLo, valueHi, valueLo]` (10_state.md rule R37), where the views are
defined, for function 0x05: the coil address and the value, each high byte first. -/
def State.echoView (s : State) : Option (List Half) :=
  if s.decodedFunction = some Config.fcWriteCoil then (s.rxbuf.slice 2 4).map registerValues else none

end Sys2Proof.Machine
end

