-- ==== Sys2Proof/Machine/Codec.lean ====
section
/-! DEFINITION. ENCODE and DECODE (41_frame_codec.md rules R130 to R155). -/

namespace Sys2Proof.Machine

/-! ## ENCODE -/

/-- The argument checks of ENCODE in their order (rule R131): the first that fails, or `none`. -/
def encodeError (s : State) : Option Reason :=
  if s.addr.toNat < Config.addrMin ∨ Config.addrMax < s.addr.toNat then some .addressOutOfRange
  else if ¬ isSupportedFunction s.func then some .functionNotSupported
  else if Config.maxPayload < s.plen.toNat then some .payloadTooLong
  else none

/-- ENCODE on a failed check (rule R132). -/
def encodeReject (r : Reason) (s : State) : State := rejectArgument r { s with txlen := 0x0000#16 }

/-- ENCODE once the payload `p` is read (rule R133): the header and the CRC go around it in TXBUF. -/
def encodeBuild (p : List Byte) (s : State) : State :=
  let c := crc16 (s.addr :: s.func :: p)
  let n := s.plen.toNat
  finish .success .none
    { s with
      txbuf := (((s.txbuf.write 0 s.addr).write 1 s.func).write (n + 2) (lowByte c)).write (n + 3) (highByte c)
      txlen := BitVec.ofNat 16 (n + Config.frameOverhead)
      crc := c }

/-- ENCODE (rule R133). Every `rd` comes before the first write, so a model fault changes nothing. -/
def execEncode (s : State) : Host.Outcome State Fault Refusal :=
  match encodeError s with
  | some r => .next (encodeReject r s)
  | none =>
    match s.rdRange .tx 2 s.plen.toNat with
    | .error f => .fault f
    | .ok p => .next (encodeBuild p s)

/-! ## DECODE -/

/-- The checks of DECODE before it reads RXBUF, in their order (rules R141 and R142): the outcome of the first that
fails, or `none`. -/
def decodeError (s : State) : Option (OutcomeTag × Reason) :=
  if ¬ isSupportedFunction s.func then some (.invalidArgument, .functionNotSupported)
  else if Config.maxFrame < s.rxlen.toNat then some (.invalidArgument, .receivedTooLong)
  else if s.rxlen.toNat < Config.minDecodeLen then some (.malformed, .tooShort)
  else none

/-- What DECODE answers for a frame it has read: OUTCOME, REASON and NREG. -/
structure Verdict where
  tag : OutcomeTag
  reason : Reason
  nreg : Nat
deriving DecidableEq, Repr

/-- Step 5, ReadHoldingRegisters (rule R150): `n` = byte 2, the length, and an even `n`. -/
def readHoldingVerdict (r : List Byte) : Verdict :=
  let n := (frameByte r 2).toNat
  if r.length ≠ n + 5 then ⟨.malformed, .lengthMismatch, 0⟩
  else if n % 2 = 1 then ⟨.malformed, .lengthMismatch, 0⟩
  else ⟨.success, .none, n / 2⟩

/-- Step 6, WriteSingleCoil (rule R151): only the length. -/
def writeCoilVerdict (r : List Byte) : Verdict :=
  if r.length ≠ Config.wscFrameLen then ⟨.malformed, .lengthMismatch, 0⟩ else ⟨.success, .none, 0⟩

/-- Steps 2 to 6 on a frame `r` (rule R152), with the expected address and function code. -/
def frameVerdict (addr func : Byte) (r : List Byte) : Verdict :=
  if receivedCrc r ≠ crc16 (frameBody r) then ⟨.checksumMismatch, .none, 0⟩
  else if frameByte r 0 ≠ addr then ⟨.addressMismatch, .none, 0⟩
  else if frameByte r 1 ≠ func then ⟨.malformed, .unexpectedFunction, 0⟩
  else if func = Config.fcReadHolding then readHoldingVerdict r
  else writeCoilVerdict r

/-- DECODE stopped by a check before it reads RXBUF: NREG is 0 and CRC keeps its value (rule R152), and no view is
defined (60_exceptions.md rule R172). -/
def decodeReject (o : OutcomeTag) (r : Reason) (s : State) : State :=
  finish o r { s with nreg := 0x00#8, decoded := false }

/-- DECODE on a frame `r` it has read (rule R152): CRC takes the recomputed CRC, and the views are defined
exactly when the outcome is SUCCESS (60_exceptions.md rule R172). -/
def decodeFrame (r : List Byte) (s : State) : State :=
  let v := frameVerdict s.addr s.func r
  finish v.tag v.reason
    { s with crc := crc16 (frameBody r), nreg := BitVec.ofNat 8 v.nreg, decoded := v.tag == .success }

/-- DECODE (rule R152). Every `rd` comes before the first write, so a model fault changes nothing. -/
def execDecode (s : State) : Host.Outcome State Fault Refusal :=
  match decodeError s with
  | some (o, r) => .next (decodeReject o r s)
  | none =>
    match s.rdRange .rx 0 s.rxlen.toNat with
    | .error f => .fault f
    | .ok r => .next (decodeFrame r s)

end Sys2Proof.Machine
end

