-- ==== Sys2Proof/Machine/Control.lean ====
section
/-! DEFINITION. NOP and the reserved command codes (41_frame_codec.md rules R120 and R160). -/

namespace Sys2Proof.Machine

/-- NOP (rule R120): no state changes. -/
def execNop (s : State) : Host.Outcome State Fault Refusal := .next s

/-- A reserved command code (rule R160): `finish(INVALID_ARGUMENT, 0x15)` and nothing else. -/
def reservedCommand (s : State) : Host.Outcome State Fault Refusal := .next (rejectArgument .reservedCommand s)

/-- 0x05 (rule R160). -/
def execReserved05 (s : State) : Host.Outcome State Fault Refusal := reservedCommand s

/-- 0x06..0x07 (rule R160). -/
def execReserved06 (s : State) : Host.Outcome State Fault Refusal := reservedCommand s

/-- 0x08..0x0F (rule R160). -/
def execReserved08 (s : State) : Host.Outcome State Fault Refusal := reservedCommand s

/-- 0x10..0x1F (rule R160). -/
def execReserved10 (s : State) : Host.Outcome State Fault Refusal := reservedCommand s

/-- 0x20..0x3F (rule R160). -/
def execReserved20 (s : State) : Host.Outcome State Fault Refusal := reservedCommand s

/-- 0x40..0x7F (rule R160). -/
def execReserved40 (s : State) : Host.Outcome State Fault Refusal := reservedCommand s

/-- 0x80..0xFF (rule R160). -/
def execReserved80 (s : State) : Host.Outcome State Fault Refusal := reservedCommand s

end Sys2Proof.Machine
end

