-- ==== Sys2Proof/Machine/Crc.lean ====
section
/-! DEFINITION. The CRC commands (40_crc.md rules R110 and R111). -/

namespace Sys2Proof.Machine

/-- CRC_INIT (rule R110): the accumulator takes the seed. -/
def execCrcInit (s : State) : Host.Outcome State Fault Refusal := .next { s with crc := Config.crcSeed }

/-- CRC_BYTE (rule R111): the accumulator takes one byte step with DATA. -/
def execCrcByte (s : State) : Host.Outcome State Fault Refusal := .next { s with crc := crcByte s.crc s.data }

end Sys2Proof.Machine
end

