-- ==== Sys2Proof/Machine/Dispatch.lean ====
section
/-! DEFINITION. The meaning of every command: one arm per constructor of Instr. -/

namespace Sys2Proof.Machine

def exec (i : Instr) (s : State) : Host.Outcome State Fault Refusal :=
  match i with
  | .nop => Sys2Proof.Machine.execNop s
  | .crcInit => Sys2Proof.Machine.execCrcInit s
  | .crcByte => Sys2Proof.Machine.execCrcByte s
  | .encode => Sys2Proof.Machine.execEncode s
  | .decode => Sys2Proof.Machine.execDecode s
  | .reserved05 => Sys2Proof.Machine.execReserved05 s
  | .reserved06 _ => Sys2Proof.Machine.execReserved06 s
  | .reserved08 _ => Sys2Proof.Machine.execReserved08 s
  | .reserved10 _ => Sys2Proof.Machine.execReserved10 s
  | .reserved20 _ => Sys2Proof.Machine.execReserved20 s
  | .reserved40 _ => Sys2Proof.Machine.execReserved40 s
  | .reserved80 _ => Sys2Proof.Machine.execReserved80 s

end Sys2Proof.Machine
end

