-- ==== Sys2Proof/Machine/HostAccess.lean ====
section
/-! DEFINITION. The host's accesses (20_memory.md rules R50 to R57) and the reset input: what one event does. -/

namespace Sys2Proof.Machine

/-- `MemRead(off, 1)` (20_memory.md rule R52): the host gets the byte and no state of the block changes. -/
def hostRead (off : Nat) (s : State) : Host.Outcome State Fault Refusal :=
  match locate off with
  | none => .fault (.outsideRegisterSpace off)
  | some l =>
    match readLocation l s with
    | .ok v => .next { s with readData := some v }
    | .error f => .fault f

/-- `MemWrite(off, 1, v)` (20_memory.md rule R53): a write to CMD runs command `v` as one indivisible step (rule R57). -/
def hostWrite (off : Nat) (v : Byte) (s : State) : Host.Outcome State Fault Refusal :=
  match locate off with
  | none => .fault (.outsideRegisterSpace off)
  | some .cmd => exec (decodeByte v) s
  | some l => .next (writeLocation l v s)

/-- What one event at the port does, once it is taken off the list of those to come. -/
def perform (e : BusEvent) (s : State) : Host.Outcome State Fault Refusal :=
  match e with
  | .read off => hostRead off s
  | .write off v => hostWrite off v s
  | .wide _ w => .refused (.wideAccess w)
  | .reset => .next (resetBlock s)

end Sys2Proof.Machine
end

