-- ==== Sys2Proof/Machine/HostProgram.lean ====
section
/-! DEFINITION. The host-program notation of 30_encoding.md rules R83 and R84, as the events it expands to, and the
request payloads a host lays out (rules R74 and R76). `expect` is a harness check, not a block operation (rule R84): its
access is `rdAt`. -/

namespace Sys2Proof.Machine

/-- `wr OFF, V`. -/
def wrAt (off : Nat) (v : Byte) : BusEvent := .write off v

/-- `rd OFF`. -/
def rdAt (off : Nat) : BusEvent := .read off

/-- `cmd NAME`: a write of the command's code to CMD. -/
def cmdEvent (i : Instr) : BusEvent := .write 0x000 (encode i)

/-- `wrbuf BUF+i, b0, …, bk`, with `off` the offset of the first byte. -/
def wrbuf (off : Nat) : List Byte → List BusEvent
  | [] => []
  | b :: bs => wrAt off b :: wrbuf (off + 1) bs

/-- `wr16 RXLEN, v`: the low byte, then the high byte. -/
def wr16Rxlen (v : Half) : List BusEvent :=
  [wrAt 0x00C (v.extractLsb' 0 8), wrAt 0x00D (v.extractLsb' 8 8)]

/-- `crcbytes b0, …, bk`: for each byte, `wr DATA` and `cmd CRC_BYTE`. -/
def crcbytes : List Byte → List BusEvent
  | [] => []
  | b :: bs => wrAt 0x006 b :: cmdEvent .crcByte :: crcbytes bs

/-- The 0x03 request payload `[startHi][startLo][countHi][countLo]` (rule R74). -/
def readRegistersPayload (start count : Half) : List Byte :=
  [start.extractLsb' 8 8, start.extractLsb' 0 8, count.extractLsb' 8 8, count.extractLsb' 0 8]

/-- The 0x05 request payload `[addrHi][addrLo][valueHi][valueLo]` (rule R76): 0xFF00 for ON, 0x0000 for OFF. -/
def writeCoilPayload (coil : Half) (on : Bool) : List Byte :=
  [coil.extractLsb' 8 8, coil.extractLsb' 0 8, if on then 0xFF#8 else 0x00#8, 0x00#8]

end Sys2Proof.Machine
end

