-- ==== Sys2Proof/Machine/Step.lean ====
section
/-! DEFINITION. One step: the next event at the port, whole (20_memory.md rules R57 and R61). -/

namespace Sys2Proof.Machine

/-- A step takes the next event, in the host's program order, and performs it; with no event to come the block does
nothing (10_state.md rule R21, 70_reset_and_hazards.md rule R192). A faulted run stays faulted (10_state.md rule R40). -/
def step (s : State) : Host.Outcome State Fault Refusal :=
  match s.fault with
  | some f => .fault f
  | none =>
    match s.pending with
    | [] => .next s
    | e :: rest => perform e { s with pending := rest }

/-- The run of 10_state.md rule R40, in which a stop is recorded in the sticky `fault` field (60_exceptions.md rule R177)
and the rest of the state stays as it was. -/
def advance (s : State) : State := recordStop s (step s)

/-- The block fetches no instructions: a command comes to it as the host's write to CMD (10_state.md rule R21,
30_encoding.md rule R83 `cmd`). The command of the table word is put at the head of the events to come. -/
def State.withFetchWord (s : State) (nbits w : Nat) : State :=
  { s with pending := .write 0x000 (tableByte nbits w) :: s.pending }

end Sys2Proof.Machine
end

