-- ==== Sys2Proof/Safety.lean ====
section
/-! DEFINITION. What the statements are written in: reading a run of bytes, the host's duties before a command, the
legal values of the result registers, and the invariant of the block. -/

namespace Sys2Proof.Machine

/-- From index `i` on, the buffer holds exactly the bytes `bs`. -/
def Memory.Holds (m : Memory) (i : Nat) (bs : List Byte) : Prop :=
  ∀ k, k < bs.length → m.read (i + k) = bs[k]?

/-- Both buffers read the same at every index. -/
def Memory.SameBytes (m m' : Memory) : Prop := ∀ i, m'.read i = m.read i

/-! ## The host's duties (70_reset_and_hazards.md section 2) -/

/-- The arguments ENCODE accepts (41_frame_codec.md rule R131). -/
def EncodeArguments (s : State) : Prop :=
  1 ≤ s.addr.toNat ∧ s.addr.toNat ≤ 127 ∧ (s.func = 0x03#8 ∨ s.func = 0x05#8) ∧ s.plen.toNat ≤ 252

/-- What the host has done before ENCODE (70_reset_and_hazards.md rule R193): legal arguments, and the payload `p` in
TXBUF[2..PLEN+1]. -/
def EncodeReady (s : State) (p : List Byte) : Prop :=
  EncodeArguments s ∧ p.length = s.plen.toNat ∧ s.txbuf.Holds 2 p

/-- What lets DECODE examine the received bytes (41_frame_codec.md rules R141 and R142): a supported function code and
5 to 256 bytes. -/
def DecodeArguments (s : State) : Prop :=
  (s.func = 0x03#8 ∨ s.func = 0x05#8) ∧ 5 ≤ s.rxlen.toNat ∧ s.rxlen.toNat ≤ 256

/-- What the host has done before DECODE (70_reset_and_hazards.md rule R195): the received bytes `r` in RXBUF[0..L-1],
with RXLEN = L. -/
def DecodeReady (s : State) (r : List Byte) : Prop :=
  DecodeArguments s ∧ r.length = s.rxlen.toNat ∧ s.rxbuf.Holds 0 r

/-- A payload well-formed for the response that DECODE checks (41_frame_codec.md rule R154, 90_conflicts.md C4): for
0x03 its first byte is even and counts the bytes after it; for 0x05 it has four bytes. -/
def WellFormedResponse (func : Byte) (p : List Byte) : Prop :=
  (func = 0x03#8 ∧ ∃ n rest, p = n :: rest ∧ rest.length = n.toNat ∧ n.toNat % 2 = 0) ∨
  (func = 0x05#8 ∧ p.length = 4)

/-- The frame `[addr][func][payload][crcLo][crcHi]` (30_encoding.md rule R73). -/
def frameOf (addr func : Byte) (p : List Byte) : List Byte :=
  addr :: func :: p ++ [lowByte (crc16 (addr :: func :: p)), highByte (crc16 (addr :: func :: p))]

/-- The received CRC bytes `lo`, `hi`, assembled as `hi · 256 + lo` (30_encoding.md rule R79), are the CRC of the bytes
before them. -/
def CrcMatches (body : List Byte) (lo hi : Byte) : Prop := hi.toNat * 256 + lo.toNat = (crc16 body).toNat

/-! ## Frames of commands and accesses -/

/-- The registers that only the host writes keep their values (10_state.md rules R26 to R29 and R31). -/
def KeepsHostRegisters (s t : State) : Prop :=
  t.addr = s.addr ∧ t.func = s.func ∧ t.plen = s.plen ∧ t.data = s.data ∧ t.rxlen = s.rxlen

/-- The fault record and the model's own host port keep their values. -/
def KeepsPort (s t : State) : Prop :=
  t.fault = s.fault ∧ t.pending = s.pending ∧ t.readData = s.readData

/-- A host read of `off` returns `v` and changes nothing of the block (20_memory.md rule R52). -/
def ReadAnswers (s : State) (off : Nat) (v : Byte) : Prop :=
  hostRead off s = .next { s with readData := some v }

/-! ## Legal values and the invariant -/

/-- The pairs of STATUS and REASON that the block produces, with the pair after reset (60_exceptions.md rule R171,
93_implementation_defined.md I4). -/
def legalResults : List (Nibble × Byte) :=
  [(0x0#4, 0x00#8), (0x1#4, 0x00#8), (0x3#4, 0x01#8), (0x3#4, 0x02#8), (0x3#4, 0x03#8), (0x4#4, 0x00#8),
   (0x5#4, 0x00#8), (0x7#4, 0x11#8), (0x7#4, 0x12#8), (0x7#4, 0x13#8), (0x7#4, 0x14#8), (0x7#4, 0x15#8)]

/-- RXBUF[0..RXLEN-1] is a frame with a payload well-formed for its function, and NREG is the number of its registers:
what the views of a decoded frame show (10_state.md rules R33 and R37). -/
def HoldsDecodedFrame (s : State) : Prop :=
  ∃ a f p, s.rxbuf.Holds 0 (frameOf a f p) ∧ s.rxlen.toNat = p.length + 4 ∧ s.rxlen.toNat ≤ 256 ∧
    WellFormedResponse f p ∧ s.nreg.toNat = if f = 0x03#8 then (p.headD 0x00#8).toNat / 2 else 0

/-- The events that end the views of the last DECODE: a host write to RXLEN or RXBUF and a DECODE (10_state.md rule R37),
and the reset input. -/
def EndsViews : BusEvent → Prop
  | .read _ => False
  | .write off v => (off = 0x000 ∧ v = 0x04#8) ∨ off = 0x00C ∨ off = 0x00D ∨ (0x200 ≤ off ∧ off < 0x300)
  | .wide _ _ => False
  | .reset => True

/-- None of the three views is defined. -/
def NoViews (s : State) : Prop := s.payloadView = none ∧ s.registersView = none ∧ s.echoView = none

/-- What holds of the block at reset and after every step: the buffers are canonical and hold only their own 256 bytes
(10_state.md rules R35 and R36), TXLEN and NREG are legal (10_state.md rules R32, R33 and R40), STATUS and REASON
hold a pair the block produces (60_exceptions.md rule R171), and where the views are defined there is a decoded frame
behind them (10_state.md rule R37). -/
structure Inv (s : State) : Prop where
  txbufWf : s.txbuf.wf
  rxbufWf : s.rxbuf.wf
  txbufInBuffer : s.txbuf.inBuffer
  rxbufInBuffer : s.rxbuf.inBuffer
  txlenLegal : s.txlen = 0x0000#16 ∨ 4 ≤ s.txlen.toNat ∧ s.txlen.toNat ≤ 256
  nregLegal : s.nreg.toNat ≤ 125
  resultLegal : (s.status, s.reason) ∈ legalResults
  viewsLegal : s.decoded = true → HoldsDecodedFrame s

/-- A run of `k` steps meets no fault and no refusal. -/
def SafeFor : Nat → State → Prop
  | 0, _ => True
  | k + 1, s => ∃ t, step s = .next t ∧ SafeFor k t

/-- An event that reads no buffer byte and stays inside the interface: a host read of a register or a reserved offset, a
host write other than of ENCODE and DECODE to CMD, and the reset input. -/
def ReadsNoBuffer : BusEvent → Prop
  | .read off => off < 0x100 ∨ 0x300 ≤ off ∧ off < 0x400
  | .write off v => off < 0x400 ∧ (off = 0x000 → v ≠ 0x03#8 ∧ v ≠ 0x04#8)
  | .wide _ _ => False
  | .reset => True

end Sys2Proof.Machine
end

