-- ==== Sys2Proof/Certificates/Slice0/Obligations.lean ====
section
/-! DEFINITION. The statements about the block. -/

open Sys2Proof Sys2Proof.Machine

/-! ## Encoding -/

/-- The bytes at both ends of every row of the opcode table, each decoded as 30_encoding.md rule R71 reads it. -/
def Obligations.CommandBytesDecodeAsTabled : Prop :=
  decodeByte 0x00#8 = .nop ∧ decodeByte 0x01#8 = .crcInit ∧ decodeByte 0x02#8 = .crcByte ∧
  decodeByte 0x03#8 = .encode ∧ decodeByte 0x04#8 = .decode ∧ decodeByte 0x05#8 = .reserved05 ∧
  decodeByte 0x06#8 = .reserved06 0x06#8 ∧ decodeByte 0x07#8 = .reserved06 0x07#8 ∧
  decodeByte 0x08#8 = .reserved08 0x08#8 ∧ decodeByte 0x0F#8 = .reserved08 0x0F#8 ∧
  decodeByte 0x10#8 = .reserved10 0x10#8 ∧ decodeByte 0x1F#8 = .reserved10 0x1F#8 ∧
  decodeByte 0x20#8 = .reserved20 0x20#8 ∧ decodeByte 0x3F#8 = .reserved20 0x3F#8 ∧
  decodeByte 0x40#8 = .reserved40 0x40#8 ∧ decodeByte 0x7F#8 = .reserved40 0x7F#8 ∧
  decodeByte 0x80#8 = .reserved80 0x80#8 ∧ decodeByte 0xFF#8 = .reserved80 0xFF#8

/-- Decoding the byte of a well-formed command gives the command back, whatever code a reserved one carries. -/
def Obligations.DecodeOfEncodeIsTheCommand : Prop :=
  ∀ i : Instr, i.wellFormed = true → decodeByte (encode i) = i

/-- Every byte decodes to a well-formed command whose byte it is (30_encoding.md rule R71: the codes cover 0x00..0xFF). -/
def Obligations.EncodeOfDecodeIsTheByte : Prop :=
  ∀ b : Byte, (decodeByte b).wellFormed = true ∧ encode (decodeByte b) = b

/-- A byte lies in the row of the command it decodes to and in no other row of the table. -/
def Obligations.EveryByteLiesInOneRow : Prop :=
  ∀ (b : Byte) (i : Instr), codeInRow i.row.1 i.row.2 b = true ↔ i.row = (decodeByte b).row

/-! ## Steps and host accesses -/

/-- A step whose next event writes CMD is exec of the decoded command, with the event taken off the list of those to
come. That list is the model's own (notes/assumptions/1.md). -/
def Obligations.StepRunsTheWrittenCommand : Prop :=
  (∀ (s : State) (v : Byte) (rest : List BusEvent), s.fault = none → s.pending = .write 0x000 v :: rest →
    step s = exec (decodeByte v) { s with pending := rest }) ∧
  (∀ (s : State) (i : Instr) (rest : List BusEvent), s.fault = none → i.wellFormed = true →
    s.pending = cmdEvent i :: rest → step s = exec i { s with pending := rest }) ∧
  (∀ (s : State) (w : Nat), s.fault = none → step (s.withFetchWord 8 w) = exec (decodeByte (BitVec.ofNat 8 w)) s)

/-- A step performs the next event in the host's order, and with none to come it changes nothing. The list of events to
come (notes/assumptions/1.md) and that the reset input is one of them (notes/assumptions/3.md) are the model's choices; that
a step without an event changes nothing is the model's inference (notes/assumptions/16.md). -/
def Obligations.StepPerformsTheNextEvent : Prop :=
  (∀ s : State, s.fault = none → s.pending = [] → step s = .next s) ∧
  (∀ (s : State) (off : Nat) (rest : List BusEvent), s.fault = none → s.pending = .read off :: rest →
    step s = hostRead off { s with pending := rest }) ∧
  (∀ (s : State) (off : Nat) (v : Byte) (rest : List BusEvent), s.fault = none → s.pending = .write off v :: rest →
    step s = hostWrite off v { s with pending := rest }) ∧
  (∀ (s : State) (rest : List BusEvent), s.fault = none → s.pending = .reset :: rest →
    step s = .next (resetBlock { s with pending := rest }))

/-- A 16, 32 or 64-bit access is refused by name (20_memory.md rule R51), and the run records the model fault of
60_exceptions.md rule R177. That it does both is the model's choice (notes/assumptions/6.md). -/
def Obligations.WideAccessIsRefused : Prop :=
  ∀ (s : State) (off : Nat) (w : WideWidth) (rest : List BusEvent), s.fault = none → s.pending = .wide off w :: rest →
    step s = .refused (.wideAccess w) ∧ advance s = { s with fault := some (.wideAccess w) }

/-- The model's choice (notes/assumptions/7.md): an access outside 0x000..0x3FF, which does not reach the block
(20_memory.md rule R54), faults by name. -/
def Obligations.AccessOutsideTheSpaceFaults : Prop :=
  ∀ (s : State) (off : Nat) (v : Byte), 0x400 ≤ off →
    hostRead off s = .fault (.outsideRegisterSpace off) ∧ hostWrite off v s = .fault (.outsideRegisterSpace off)

/-- 20_memory.md rule R52, offset by offset: the byte returned, and that a read changes nothing of the block. -/
def Obligations.HostReadFollowsTheMap : Prop :=
  ∀ s : State,
    ReadAnswers s 0x000 0x00#8 ∧ ReadAnswers s 0x001 (s.status.setWidth 8) ∧ ReadAnswers s 0x002 s.reason ∧
    ReadAnswers s 0x003 s.addr ∧ ReadAnswers s 0x004 s.func ∧ ReadAnswers s 0x005 s.plen ∧
    ReadAnswers s 0x006 s.data ∧ ReadAnswers s 0x007 0x00#8 ∧
    ReadAnswers s 0x008 (BitVec.ofNat 8 (s.crc.toNat % 256)) ∧
    ReadAnswers s 0x009 (BitVec.ofNat 8 (s.crc.toNat / 256)) ∧
    ReadAnswers s 0x00A (BitVec.ofNat 8 (s.txlen.toNat % 256)) ∧
    ReadAnswers s 0x00B (BitVec.ofNat 8 (s.txlen.toNat / 256)) ∧
    ReadAnswers s 0x00C (BitVec.ofNat 8 (s.rxlen.toNat % 256)) ∧
    ReadAnswers s 0x00D (BitVec.ofNat 8 (s.rxlen.toNat / 256)) ∧ ReadAnswers s 0x00E s.nreg ∧
    (∀ off, 0x00F ≤ off → off < 0x100 → ReadAnswers s off 0x00#8) ∧
    (∀ i v, i < 256 → s.txbuf.read i = some v → ReadAnswers s (0x100 + i) v) ∧
    (∀ i, i < 256 → s.txbuf.read i = none → hostRead (0x100 + i) s = .fault (.unwrittenByte .tx i)) ∧
    (∀ i v, i < 256 → s.rxbuf.read i = some v → ReadAnswers s (0x200 + i) v) ∧
    (∀ i, i < 256 → s.rxbuf.read i = none → hostRead (0x200 + i) s = .fault (.unwrittenByte .rx i)) ∧
    (∀ off, 0x300 ≤ off → off < 0x400 → ReadAnswers s off 0x00#8)

/-- 20_memory.md rule R53, offset by offset: the one register or buffer byte that changes, or none. What a write
leaves in `decoded`, the model's own field (notes/assumptions/20.md), is said by ViewsLastUntilTheirFrameChanges. -/
def Obligations.HostWriteFollowsTheMap : Prop :=
  ∀ (s : State) (v : Byte),
    hostWrite 0x000 v s = exec (decodeByte v) s ∧
    hostWrite 0x003 v s = .next { s with addr := v } ∧ hostWrite 0x004 v s = .next { s with func := v } ∧
    hostWrite 0x005 v s = .next { s with plen := v } ∧ hostWrite 0x006 v s = .next { s with data := v } ∧
    (∃ d, hostWrite 0x00C v s =
      .next { s with rxlen := BitVec.ofNat 16 (s.rxlen.toNat / 256 * 256 + v.toNat), decoded := d }) ∧
    (∃ d, hostWrite 0x00D v s =
      .next { s with rxlen := BitVec.ofNat 16 (v.toNat * 256 + s.rxlen.toNat % 256), decoded := d }) ∧
    (∀ off, off ∈ [0x001, 0x002, 0x007, 0x008, 0x009, 0x00A, 0x00B, 0x00E] → hostWrite off v s = .next s) ∧
    (∀ off, 0x00F ≤ off → off < 0x100 → hostWrite off v s = .next s) ∧
    (∀ i, i < 256 → ∃ m : Memory, hostWrite (0x100 + i) v s = .next { s with txbuf := m } ∧
      m.read i = some v ∧ ∀ j, j ≠ i → m.read j = s.txbuf.read j) ∧
    (∀ i, i < 256 → ∃ (m : Memory) (d : Bool), hostWrite (0x200 + i) v s = .next { s with rxbuf := m, decoded := d } ∧
      m.read i = some v ∧ ∀ j, j ≠ i → m.read j = s.rxbuf.read j) ∧
    (∀ off, 0x300 ≤ off → off < 0x400 → hostWrite off v s = .next s)

/-- A host read of a read-write location returns the last byte written there. -/
def Obligations.ReadReturnsTheLastWrite : Prop :=
  ∀ (s : State) (off : Nat) (v : Byte),
    off ∈ [0x003, 0x004, 0x005, 0x006, 0x00C, 0x00D] ∨ 0x100 ≤ off ∧ off < 0x300 →
    ∃ t, hostWrite off v s = .next t ∧ ReadAnswers t off v

/-- A host write to any offset but CMD changes what the host reads at no other offset: each location answers the same
byte or the same fault as before. -/
def Obligations.WriteLeavesOtherOffsetsAlone : Prop :=
  ∀ (s : State) (off off' : Nat) (v : Byte), off ≠ 0x000 → off < 0x400 → off' ≠ off →
    ∃ t, hostWrite off v s = .next t ∧
      ((∃ w, ReadAnswers s off' w ∧ ReadAnswers t off' w) ∨ (∃ f, hostRead off' s = .fault f ∧ hostRead off' t = .fault f))

/-- Reads have no side effect on the block and are idempotent, and every host write but the one to CMD is idempotent
(20_memory.md rule R55). -/
def Obligations.ReadsAndPlainWritesAreIdempotent : Prop :=
  (∀ (s t : State) (off : Nat), hostRead off s = .next t →
    (∃ v, t = { s with readData := some v }) ∧ hostRead off t = .next t) ∧
  (∀ (s : State) (off : Nat) (v : Byte), off ≠ 0x000 → off < 0x400 →
    ∃ t, hostWrite off v s = .next t ∧ hostWrite off v t = .next t) ∧
  (∃ s t u : State, hostWrite 0x000 0x02#8 s = .next t ∧ hostWrite 0x000 0x02#8 t = .next u ∧ t.crc ≠ s.crc ∧ u.crc ≠ t.crc)

/-! ## Stops -/

/-- A fault of a step is recorded in the sticky field with nothing else changed, and no number of further steps clears
it. How a stop and the field go together is the model's choice (notes/assumptions/5.md). -/
def Obligations.ModelFaultIsSticky : Prop :=
  (∀ (s : State) (f : Fault), step s = .fault f → advance s = { s with fault := some f }) ∧
  (∀ (s : State) (f : Fault) (n : Nat), s.fault = some f → step s = .fault f ∧ Nat.iterate advance n s = s)

/-- A command stops only where ENCODE needs a payload byte, or DECODE a byte of the frame, that nothing has written; it
then faults with the name of that byte. No command is refused. -/
def Obligations.OnlyAnUnwrittenByteStopsACommand : Prop :=
  ∀ (i : Instr) (s : State),
    (∃ t, exec i s = .next t) ∨
    (i = .encode ∧ EncodeArguments s ∧
      ∃ j, 2 ≤ j ∧ j < 2 + s.plen.toNat ∧ s.txbuf.read j = none ∧ exec i s = .fault (.unwrittenByte .tx j)) ∨
    (i = .decode ∧ DecodeArguments s ∧
      ∃ j, j < s.rxlen.toNat ∧ s.rxbuf.read j = none ∧ exec i s = .fault (.unwrittenByte .rx j))

/-- A run of register accesses, buffer writes, resets and commands other than ENCODE and DECODE, all inside the interface,
never stops, whatever the state it starts in. Past its last event the run rests on the model's idle step
(notes/assumptions/16.md), and the list of events and the reset input in it are the model's own (notes/assumptions/1.md and
3.md). -/
def Obligations.RunsWithoutBufferReadsNeverStop : Prop :=
  ∀ (k : Nat) (s : State), s.fault = none → (∀ e ∈ s.pending, ReadsNoBuffer e) → SafeFor k s

/-! ## Reset -/

/-- 70_reset_and_hazards.md rule R190: the value of every register and buffer byte after reset, at State.reset and after
the reset input, whatever the block held before. -/
def Obligations.ResetGivesTheTabledValues : Prop :=
  ∀ t : State, (t = State.reset ∨ ∃ s : State, t = resetBlock s) →
    t.status = 0#4 ∧ t.reason = 0x00#8 ∧ t.addr = 0x00#8 ∧ t.func = 0x00#8 ∧ t.plen = 0x00#8 ∧ t.data = 0x00#8 ∧
    t.crc = 0xFFFF#16 ∧ t.txlen = 0x0000#16 ∧ t.rxlen = 0x0000#16 ∧ t.nreg = 0x00#8 ∧
    (∀ i, t.txbuf.read i = none) ∧ (∀ i, t.rxbuf.read i = none)

/-- With no model fault recorded, a step that meets the reset input gives the state of 70_reset_and_hazards.md rule R190,
every register and buffer byte of it. That the reset input is an event of the list, and what it leaves of the model's own
fields (the events still to come and the byte last read stay), is the model's choice (notes/assumptions/3.md). -/
def Obligations.ResetInputIsAlwaysTaken : Prop :=
  ∀ (s : State) (rest : List BusEvent), s.fault = none → s.pending = .reset :: rest →
    ∃ t, step s = .next t ∧ t = resetBlock { s with pending := rest } ∧
      t.status = 0x0#4 ∧ t.reason = 0x00#8 ∧ t.addr = 0x00#8 ∧ t.func = 0x00#8 ∧ t.plen = 0x00#8 ∧ t.data = 0x00#8 ∧
      t.crc = 0xFFFF#16 ∧ t.txlen = 0x0000#16 ∧ t.rxlen = 0x0000#16 ∧ t.nreg = 0x00#8 ∧
      (∀ i, t.txbuf.read i = none) ∧ (∀ i, t.rxbuf.read i = none) ∧
      t.pending = rest ∧ t.readData = s.readData ∧ t.fault = none

/-! ## The CRC function -/

/-- 40_crc.md rule R102, bit by bit: bit `i` of the result is bit `i + 1` of `c` (0 at bit 15), flipped where 0xA001 has
a one when bit 0 of `c` is set. -/
def Obligations.CrcBitBitByBit : Prop :=
  ∀ (c : Half) (i : Nat), i < 16 →
    (crcBit c).getLsbD i = Bool.xor (c.getLsbD (i + 1)) (c.getLsbD 0 && (0xA001#16).getLsbD i)

/-- 40_crc.md rule R101: the byte is XORed into the low byte, the high byte unchanged, and eight bit steps follow. -/
def Obligations.CrcByteEntersTheLowByte : Prop :=
  ∀ (c : Half) (b : Byte), crcByte c b =
    crcBit (crcBit (crcBit (crcBit (crcBit (crcBit (crcBit (crcBit (joinBytes (highByte c) (lowByte c ^^^ b)))))))))

/-- 40_crc.md rule R100: the seed for the empty sequence, and one byte step for each further byte. -/
def Obligations.CrcSixteenStepsByteByByte : Prop :=
  crc16 [] = 0xFFFF#16 ∧ ∀ (bs : List Byte) (b : Byte), crc16 (bs ++ [b]) = crcByte (crc16 bs) b

/-- 40_crc.md rule R104: the CRC of the empty sequence, and a zero accumulator stays zero under zero bytes. -/
def Obligations.ZeroAccumulatorStaysZero : Prop :=
  crc16 [] = 0xFFFF#16 ∧ crcByte 0x0000#16 0x00#8 = 0x0000#16 ∧ ∀ n : Nat, (List.replicate n 0x00#8).foldl crcByte 0x0000#16 = 0x0000#16

/-- 40_crc.md rule R105: a sequence followed by its CRC, low byte first, has CRC zero. -/
def Obligations.CrcResidueIsZero : Prop :=
  ∀ bs : List Byte, crc16 (bs ++ [lowByte (crc16 bs), highByte (crc16 bs)]) = 0x0000#16

/-- The table-driven byte step, with a table entry for each byte, equals the bitwise one (40_crc.md rule R103 asks for
this proof of anyone who substitutes it). -/
def Obligations.TableDrivenCrcAgrees : Prop :=
  ∀ (c : Half) (b : Byte), crcByte c b = (c >>> 8) ^^^ crcBits 8 ((lowByte c ^^^ b).setWidth 16)

/-- Changing one byte of a sequence changes its CRC. -/
def Obligations.CrcDetectsOneChangedByte : Prop :=
  ∀ (u v : List Byte) (a b : Byte), a ≠ b → crc16 (u ++ a :: v) ≠ crc16 (u ++ b :: v)

/-! ## NOP, the CRC commands and the reserved codes -/

/-- 41_frame_codec.md rule R120. -/
def Obligations.NopChangesNothing : Prop := ∀ s : State, exec .nop s = .next s

/-- 40_crc.md rule R110: CRC takes 0xFFFF, everything else is unchanged, and a second one changes nothing more. -/
def Obligations.CrcInitSetsTheSeed : Prop :=
  ∀ s : State, exec .crcInit s = .next { s with crc := 0xFFFF#16 } ∧
    exec .crcInit { s with crc := 0xFFFF#16 } = .next { s with crc := 0xFFFF#16 }

/-- 40_crc.md rule R111: CRC takes one byte step with DATA, and everything else, DATA too, is unchanged. -/
def Obligations.CrcByteStepsTheAccumulator : Prop :=
  ∀ s : State, exec .crcByte s = .next { s with crc := crcByte s.crc s.data }

/-- 41_frame_codec.md rule R160, row by row of the opcode table. -/
def Obligations.ReservedRowsFinishInvalid : Prop :=
  ∀ (s : State) (c : Byte),
    exec .reserved05 s = .next { s with status := 0x7#4, reason := 0x15#8 } ∧
    exec (.reserved06 c) s = .next { s with status := 0x7#4, reason := 0x15#8 } ∧
    exec (.reserved08 c) s = .next { s with status := 0x7#4, reason := 0x15#8 } ∧
    exec (.reserved10 c) s = .next { s with status := 0x7#4, reason := 0x15#8 } ∧
    exec (.reserved20 c) s = .next { s with status := 0x7#4, reason := 0x15#8 } ∧
    exec (.reserved40 c) s = .next { s with status := 0x7#4, reason := 0x15#8 } ∧
    exec (.reserved80 c) s = .next { s with status := 0x7#4, reason := 0x15#8 }

/-- 30_encoding.md rule R72 by code: every byte 0x05..0xFF written to CMD finishes with INVALID_ARGUMENT, 0x15 and
changes nothing else. -/
def Obligations.EveryReservedCodeFinishesInvalid : Prop :=
  ∀ (s : State) (v : Byte), 5 ≤ v.toNat → hostWrite 0x000 v s = .next { s with status := 0x7#4, reason := 0x15#8 }

/-! ## ENCODE -/

/-- 41_frame_codec.md rule R133 when the checks pass and the payload is written: the frame, its length, its CRC and the
outcome, with the stored bytes TXBUF[0], [1], [PLEN+2] and [PLEN+3] and the frame of everything else. -/
def Obligations.EncodeBuildsTheFrame : Prop :=
  ∀ (s : State) (p : List Byte), EncodeReady s p →
    ∃ t, exec .encode s = .next t ∧ t.status = 0x1#4 ∧ t.reason = 0x00#8 ∧ t.txlen.toNat = s.plen.toNat + 4 ∧
      t.crc = crc16 (s.addr :: s.func :: p) ∧
      t.txbuf.read 0 = some s.addr ∧ t.txbuf.read 1 = some s.func ∧ t.txbuf.Holds 2 p ∧
      (∃ lo hi, t.txbuf.read (s.plen.toNat + 2) = some lo ∧ t.txbuf.read (s.plen.toNat + 3) = some hi ∧
        CrcMatches (s.addr :: s.func :: p) lo hi) ∧
      (∀ i, i ≠ 0 → i ≠ 1 → i ≠ s.plen.toNat + 2 → i ≠ s.plen.toNat + 3 → t.txbuf.read i = s.txbuf.read i) ∧
      KeepsHostRegisters s t ∧ t.nreg = s.nreg ∧ s.rxbuf.SameBytes t.rxbuf ∧ KeepsPort s t ∧ t.decoded = s.decoded

/-- 41_frame_codec.md rules R131 and R132: the three argument checks in their order, with TXLEN 0 and everything else
unchanged on a failure. -/
def Obligations.EncodeRejectsBadArguments : Prop :=
  ∀ s : State,
    (s.addr.toNat < 1 ∨ 127 < s.addr.toNat →
      exec .encode s = .next { s with txlen := 0x0000#16, status := 0x7#4, reason := 0x11#8 }) ∧
    (1 ≤ s.addr.toNat → s.addr.toNat ≤ 127 → s.func ≠ 0x03#8 → s.func ≠ 0x05#8 →
      exec .encode s = .next { s with txlen := 0x0000#16, status := 0x7#4, reason := 0x12#8 }) ∧
    (1 ≤ s.addr.toNat → s.addr.toNat ≤ 127 → s.func = 0x03#8 ∨ s.func = 0x05#8 → 252 < s.plen.toNat →
      exec .encode s = .next { s with txlen := 0x0000#16, status := 0x7#4, reason := 0x13#8 })

/-- ENCODE faults where a payload byte has not been written (41_frame_codec.md rule R133, 00_scope.md rule R14). That the
fault names the first such byte is the model's inference (notes/assumptions/8.md). -/
def Obligations.EncodeFaultsAtTheFirstUnwrittenByte : Prop :=
  ∀ (s : State) (j : Nat), EncodeArguments s → j < s.plen.toNat → s.txbuf.read (2 + j) = none →
    (∀ k, k < j → (s.txbuf.read (2 + k)).isSome = true) → exec .encode s = .fault (.unwrittenByte .tx (2 + j))

/-- 41_frame_codec.md rule R134: running ENCODE a second time changes nothing. -/
def Obligations.EncodeTwiceIsEncodeOnce : Prop :=
  ∀ s t : State, s.txbuf.wf → exec .encode s = .next t → exec .encode t = .next t

/-- ENCODE's outcome depends on ADDR, FUNC, PLEN and the payload bytes alone: two states that agree on them get the same
outcome, length and frame bytes. -/
def Obligations.EncodeReadsOnlyItsOperands : Prop :=
  ∀ s u t : State, u.addr = s.addr → u.func = s.func → u.plen = s.plen →
    (∀ k, k < s.plen.toNat → u.txbuf.read (2 + k) = s.txbuf.read (2 + k)) → exec .encode s = .next t →
    ∃ w, exec .encode u = .next w ∧ w.status = t.status ∧ w.reason = t.reason ∧ w.txlen = t.txlen ∧
      (t.status = 0x1#4 → w.crc = t.crc ∧ ∀ i, i < t.txlen.toNat → w.txbuf.read i = t.txbuf.read i)

/-- The whole frame that ENCODE leaves in TXBUF[0..TXLEN-1] is readable and has CRC zero. -/
def Obligations.EncodedFrameHasZeroResidue : Prop :=
  ∀ s t : State, exec .encode s = .next t → t.status = 0x1#4 →
    ∃ frame, t.frameToSend = some frame ∧ frame.length = t.txlen.toNat ∧ crc16 frame = 0x0000#16

/-! ## DECODE

Where a statement gives the whole next state, `d` stands for what DECODE leaves in `decoded`, a field of the model's own
(notes/assumptions/20.md): FailedDecodeIsNeverPartialSuccess and DecodedViewsShowThePayload say what it means. -/

/-- 41_frame_codec.md rules R141 and R142: the argument checks in their order, then step 1. NREG is 0, CRC is unchanged
and no byte of RXBUF is read: nothing is assumed of RXBUF. -/
def Obligations.DecodeRejectsBeforeReading : Prop :=
  ∀ s : State,
    (s.func ≠ 0x03#8 → s.func ≠ 0x05#8 →
      ∃ d, exec .decode s = .next { s with nreg := 0x00#8, status := 0x7#4, reason := 0x12#8, decoded := d }) ∧
    (s.func = 0x03#8 ∨ s.func = 0x05#8 → 256 < s.rxlen.toNat →
      ∃ d, exec .decode s = .next { s with nreg := 0x00#8, status := 0x7#4, reason := 0x14#8, decoded := d }) ∧
    (s.func = 0x03#8 ∨ s.func = 0x05#8 → s.rxlen.toNat < 5 →
      ∃ d, exec .decode s = .next { s with nreg := 0x00#8, status := 0x3#4, reason := 0x01#8, decoded := d })

/-- 41_frame_codec.md rule R143, step 2: CRC takes the recomputed CRC whether or not the received one matches it, and
CHECKSUM_MISMATCH is the outcome exactly when it does not. -/
def Obligations.DecodeReportsChecksumMismatch : Prop :=
  ∀ (s : State) (body : List Byte) (lo hi : Byte), DecodeReady s (body ++ [lo, hi]) →
    (¬ CrcMatches body lo hi →
      ∃ d, exec .decode s =
        .next { s with crc := crc16 body, nreg := 0x00#8, status := 0x4#4, reason := 0x00#8, decoded := d }) ∧
    (CrcMatches body lo hi → ∃ t, exec .decode s = .next t ∧ t.crc = crc16 body ∧ t.status ≠ 0x4#4)

/-- 41_frame_codec.md rule R145, step 3: another address is reported only when the CRC is valid; with a bad CRC the
outcome is CHECKSUM_MISMATCH. -/
def Obligations.DecodeReportsAddressMismatch : Prop :=
  ∀ (s : State) (a : Byte) (rest : List Byte) (lo hi : Byte), DecodeReady s (a :: rest ++ [lo, hi]) → a ≠ s.addr →
    (CrcMatches (a :: rest) lo hi →
      ∃ d, exec .decode s =
        .next { s with crc := crc16 (a :: rest), nreg := 0x00#8, status := 0x5#4, reason := 0x00#8, decoded := d }) ∧
    (¬ CrcMatches (a :: rest) lo hi →
      ∃ d, exec .decode s =
        .next { s with crc := crc16 (a :: rest), nreg := 0x00#8, status := 0x4#4, reason := 0x00#8, decoded := d })

/-- 41_frame_codec.md rule R146, step 4: a valid CRC, the expected address and another function code, a Modbus exception
response among them. -/
def Obligations.DecodeReportsUnexpectedFunction : Prop :=
  ∀ (s : State) (f : Byte) (rest : List Byte) (lo hi : Byte), DecodeReady s (s.addr :: f :: rest ++ [lo, hi]) →
    CrcMatches (s.addr :: f :: rest) lo hi → f ≠ s.func →
    ∃ d, exec .decode s =
      .next { s with crc := crc16 (s.addr :: f :: rest), nreg := 0x00#8, status := 0x3#4, reason := 0x02#8, decoded := d }

/-- 41_frame_codec.md rule R150, step 5: byte count `n`, the length, an even `n`, and NREG. -/
def Obligations.DecodeReadHoldingResponse : Prop :=
  ∀ (s : State) (n : Byte) (rest : List Byte) (lo hi : Byte),
    DecodeReady s (s.addr :: s.func :: n :: rest ++ [lo, hi]) → CrcMatches (s.addr :: s.func :: n :: rest) lo hi →
    s.func = 0x03#8 →
    (s.rxlen.toNat ≠ n.toNat + 5 ∨ n.toNat % 2 = 1 →
      ∃ d, exec .decode s = .next { s with
        crc := crc16 (s.addr :: s.func :: n :: rest), nreg := 0x00#8, status := 0x3#4, reason := 0x03#8, decoded := d }) ∧
    (s.rxlen.toNat = n.toNat + 5 → n.toNat % 2 = 0 →
      ∃ d, exec .decode s = .next { s with
        crc := crc16 (s.addr :: s.func :: n :: rest), nreg := BitVec.ofNat 8 (n.toNat / 2), status := 0x1#4,
        reason := 0x00#8, decoded := d })

/-- 41_frame_codec.md rule R151, step 6: the length 8, and nothing of the value or the coil address. -/
def Obligations.DecodeWriteCoilResponse : Prop :=
  ∀ (s : State) (rest : List Byte) (lo hi : Byte),
    DecodeReady s (s.addr :: s.func :: rest ++ [lo, hi]) → CrcMatches (s.addr :: s.func :: rest) lo hi →
    s.func = 0x05#8 →
    (s.rxlen.toNat ≠ 8 →
      ∃ d, exec .decode s = .next { s with
        crc := crc16 (s.addr :: s.func :: rest), nreg := 0x00#8, status := 0x3#4, reason := 0x03#8, decoded := d }) ∧
    (s.rxlen.toNat = 8 →
      ∃ d, exec .decode s = .next { s with
        crc := crc16 (s.addr :: s.func :: rest), nreg := 0x00#8, status := 0x1#4, reason := 0x00#8, decoded := d })

/-- DECODE faults where a byte of the frame has not been written (41_frame_codec.md rule R152, 00_scope.md rule R14). That
the fault names the first such byte is the model's inference (notes/assumptions/8.md). -/
def Obligations.DecodeFaultsAtTheFirstUnwrittenByte : Prop :=
  ∀ (s : State) (j : Nat), DecodeArguments s → j < s.rxlen.toNat → s.rxbuf.read j = none →
    (∀ k, k < j → (s.rxbuf.read k).isSome = true) → exec .decode s = .fault (.unwrittenByte .rx j)

/-- DECODE finishes with SUCCESS exactly on the frames `[ADDR][FUNC][payload][crcLo][crcHi]` with a payload well-formed
for the response. -/
def Obligations.DecodeAcceptsExactlyTheValidFrames : Prop :=
  ∀ (s : State) (r : List Byte), DecodeReady s r →
    ∃ t, exec .decode s = .next t ∧
      (t.status = 0x1#4 ↔ ∃ p, r = frameOf s.addr s.func p ∧ WellFormedResponse s.func p)

/-- 60_exceptions.md rule R172 and 10_state.md rule R33: NREG is 0 after every DECODE but one that succeeds for function
0x03, and then it is half the byte count. -/
def Obligations.NregCountsOnlyASuccessfulRead : Prop :=
  ∀ s t : State, exec .decode s = .next t →
    (t.status ≠ 0x1#4 ∨ s.func ≠ 0x03#8 → t.nreg = 0x00#8) ∧
    (t.status = 0x1#4 → s.func = 0x03#8 → ∃ n, s.rxbuf.read 2 = some n ∧ n.toNat % 2 = 0 ∧ t.nreg.toNat = n.toNat / 2)

/-- DECODE of a valid frame finishes with SUCCESS, and the views of 10_state.md rule R37 then show the payload, and of it
the NREG big-endian registers for function 0x03, NREG being half the byte count, or the big-endian coil address and value
for function 0x05. -/
def Obligations.DecodedViewsShowThePayload : Prop :=
  ∀ (s : State) (p : List Byte), DecodeReady s (frameOf s.addr s.func p) → WellFormedResponse s.func p →
    ∃ t, exec .decode s = .next t ∧ t.status = 0x1#4 ∧ t.reason = 0x00#8 ∧ t.payloadView = some p ∧
      (s.func = 0x03#8 → t.echoView = none ∧ ∃ n rest regs, p = n :: rest ∧ t.nreg.toNat = n.toNat / 2 ∧
        t.registersView = some regs ∧ regs.length = t.nreg.toNat ∧
        ∀ i, i < t.nreg.toNat → ∃ v hi lo, regs[i]? = some v ∧ p[1 + 2 * i]? = some hi ∧ p[2 + 2 * i]? = some lo ∧
          v.toNat = hi.toNat * 256 + lo.toNat) ∧
      (s.func = 0x05#8 → t.registersView = none ∧ t.nreg = 0x00#8 ∧
        ∃ a b c d, p = [a, b, c, d] ∧ t.echoView = some [joinBytes a b, joinBytes c d])

/-- 60_exceptions.md rule R172: on every outcome but SUCCESS, NREG is 0 and no view is defined. That an undefined view
answers `none` is the model's choice (notes/assumptions/20.md). -/
def Obligations.FailedDecodeIsNeverPartialSuccess : Prop :=
  ∀ s t : State, exec .decode s = .next t → t.status ≠ 0x1#4 → t.nreg = 0x00#8 ∧ NoViews t

/-- The views of the last DECODE stay as they are until the host writes RXBUF or RXLEN, runs DECODE again (10_state.md rule
R37, 70_reset_and_hazards.md rule R203) or resets the block, and then no view of the old frame is left. That the views are
answered from a field of the model's own is its choice (notes/assumptions/20.md), as the list of events is
(notes/assumptions/1.md and 3.md). -/
def Obligations.ViewsLastUntilTheirFrameChanges : Prop :=
  ∀ s t : State, step s = .next t →
    ((∀ e rest, s.pending = e :: rest → ¬ EndsViews e) →
      t.payloadView = s.payloadView ∧ t.registersView = s.registersView ∧ t.echoView = s.echoView) ∧
    (∀ e rest, s.pending = e :: rest → EndsViews e → e ≠ .write 0x000 0x04#8 → NoViews t)

/-- DECODE's outcome depends on ADDR, FUNC, RXLEN and RXBUF[0..RXLEN-1] alone (41_frame_codec.md rule R153: RXBUF[L..255]
are never read), and not on the CRC register (10_state.md rule R30). So does the CRC it leaves where it recomputes one;
where it stops before step 2, CRC keeps its value. -/
def Obligations.DecodeReadsOnlyItsFrame : Prop :=
  ∀ s u t : State, u.addr = s.addr → u.func = s.func → u.rxlen = s.rxlen →
    (∀ k, k < s.rxlen.toNat → u.rxbuf.read k = s.rxbuf.read k) → exec .decode s = .next t →
    ∃ w, exec .decode u = .next w ∧ w.status = t.status ∧ w.reason = t.reason ∧ w.nreg = t.nreg ∧
      w.payloadView = t.payloadView ∧ w.registersView = t.registersView ∧ w.echoView = t.echoView ∧
      (DecodeArguments s → w.crc = t.crc) ∧ (¬ DecodeArguments s → t.crc = s.crc ∧ w.crc = u.crc)

/-- 41_frame_codec.md rule R144: any change of a CRC byte of a frame that passes step 2 ends at CHECKSUM_MISMATCH, with
the same recomputed CRC. -/
def Obligations.ChangedCrcByteIsCaught : Prop :=
  ∀ (s : State) (body : List Byte) (lo hi b : Byte), DecodeReady s (body ++ [lo, hi]) → CrcMatches body lo hi →
    (b ≠ lo → ∃ t, exec .decode { s with rxbuf := s.rxbuf.write (s.rxlen.toNat - 2) b } = .next t ∧
      t.status = 0x4#4 ∧ t.reason = 0x00#8 ∧ t.crc = crc16 body) ∧
    (b ≠ hi → ∃ t, exec .decode { s with rxbuf := s.rxbuf.write (s.rxlen.toNat - 1) b } = .next t ∧
      t.status = 0x4#4 ∧ t.reason = 0x00#8 ∧ t.crc = crc16 body)

/-- Changing any one byte of a received frame with a valid CRC ends at CHECKSUM_MISMATCH, whatever its length. -/
def Obligations.AnyChangedByteIsCaught : Prop :=
  ∀ (s : State) (body : List Byte) (lo hi b : Byte) (k : Nat), DecodeReady s (body ++ [lo, hi]) →
    CrcMatches body lo hi → k < s.rxlen.toNat → s.rxbuf.read k ≠ some b →
    ∃ t, exec .decode { s with rxbuf := s.rxbuf.write k b } = .next t ∧ t.status = 0x4#4 ∧ t.reason = 0x00#8

/-! ## Whole-machine rules -/

/-- No command writes ADDR, FUNC, PLEN, DATA, RXLEN or a byte of RXBUF (10_state.md rules R26 to R29, R31 and R36), nor
the model's own port; only DECODE changes whether the views are defined. -/
def Obligations.CommandsLeaveTheHostsSideAlone : Prop :=
  ∀ (i : Instr) (s t : State), exec i s = .next t →
    KeepsHostRegisters s t ∧ s.rxbuf.SameBytes t.rxbuf ∧ KeepsPort s t ∧
    (i ≠ .encode → t.txlen = s.txlen ∧ s.txbuf.SameBytes t.txbuf) ∧ (i ≠ .decode → t.nreg = s.nreg ∧ t.decoded = s.decoded)

/-- The result registers change only by the commands that write them, or by reset: STATUS and REASON by ENCODE, DECODE
and the reserved codes, CRC by the CRC commands, ENCODE and DECODE, TXLEN by ENCODE and NREG by DECODE (10_state.md rules
R24, R30, R32, R33 and R38, 60_exceptions.md rule R176). -/
def Obligations.ResultsChangeOnlyByTheirCommands : Prop :=
  ∀ s t : State, step s = .next t → (∀ rest, s.pending ≠ .reset :: rest) →
    (t.status ≠ s.status ∨ t.reason ≠ s.reason → ∃ v rest, s.pending = .write 0x000 v :: rest ∧ 3 ≤ v.toNat) ∧
    (t.crc ≠ s.crc → ∃ v rest, s.pending = .write 0x000 v :: rest ∧ 1 ≤ v.toNat ∧ v.toNat ≤ 4) ∧
    (t.txlen ≠ s.txlen → ∃ rest, s.pending = .write 0x000 0x03#8 :: rest) ∧
    (t.nreg ≠ s.nreg → ∃ rest, s.pending = .write 0x000 0x04#8 :: rest)

/-- The block is in a legal state right after reset. -/
def Obligations.ResetIsLegal : Prop := Inv State.reset

/-- Every step keeps the block in a legal state: canonical buffers of 256 bytes, TXLEN 0 or 4..256, NREG at most 125, a
pair of STATUS and REASON that the block produces, and a decoded frame in RXBUF wherever the views are defined. -/
def Obligations.EveryStepKeepsTheStateLegal : Prop :=
  ∀ s t : State, Inv s → step s = .next t → Inv t

/-! ## Sequences of commands -/

/-- 40_crc.md rule R112: CRC_INIT and then, for each byte in order, a write of DATA and CRC_BYTE leave `crc16` of the
bytes in CRC, from any state, and change nothing but CRC and DATA. The list of events to come is the model's own
(notes/assumptions/1.md). -/
def Obligations.StreamingComputesTheCrc : Prop :=
  ∀ (s : State) (bs : List Byte) (rest : List BusEvent), s.fault = none →
    s.pending = cmdEvent .crcInit :: (crcbytes bs ++ rest) →
    Nat.iterate advance (1 + 2 * bs.length) s = { s with crc := crc16 bs, data := bs.getLastD s.data, pending := rest }

/-- 41_frame_codec.md rule R154: a frame that ENCODE built, received whole and decoded with the same ADDR and FUNC,
finishes with SUCCESS and shows its payload exactly when the payload is well-formed for the response, and is otherwise
MALFORMED: 0x01 for an empty payload, else 0x03. -/
def Obligations.DecodeOfEncodeRoundTrip : Prop :=
  ∀ (s t u : State) (p : List Byte), EncodeReady s p → exec .encode s = .next t →
    u.addr = s.addr → u.func = s.func → u.rxlen = t.txlen →
    (∀ k, k < t.txlen.toNat → u.rxbuf.read k = t.txbuf.read k) →
    ∃ w, exec .decode u = .next w ∧
      (WellFormedResponse s.func p → w.status = 0x1#4 ∧ w.reason = 0x00#8 ∧ w.payloadView = some p) ∧
      (¬ WellFormedResponse s.func p →
        w.status = 0x3#4 ∧ w.reason = if s.plen = 0x00#8 then 0x01#8 else 0x03#8)
end

