-- ==== Sys2Proof/Laws/Crc.lean ====
section
/-! SUPPORT. The laws of the CRC function, of the halves of a 16-bit value, and of the frame fields. -/

namespace Sys2Proof.Machine

@[simp] theorem crc16_nil : crc16 [] = 0xFFFF#16 := rfl

/-- The CRC of a longer sequence goes on from the CRC of its start (40_crc.md rule R100). -/
theorem crc16_append (bs cs : List Byte) : crc16 (bs ++ cs) = cs.foldl crcByte (crc16 bs) := by
  simp [crc16, List.foldl_append]

theorem crc16_concat (bs : List Byte) (b : Byte) : crc16 (bs ++ [b]) = crcByte (crc16 bs) b := by
  simp [crc16_append]

theorem crcByte_eq (c : Half) (b : Byte) : crcByte c b = crcBits 8 (c ^^^ b.setWidth 16) := rfl

/-! ## Halves -/

@[simp] theorem toNat_lowByte (v : Half) : (lowByte v).toNat = v.toNat % 256 := by
  simp [lowByte, BitVec.extractLsb'_toNat]

@[simp] theorem toNat_highByte (v : Half) : (highByte v).toNat = v.toNat / 256 := by
  have := v.isLt
  simp only [highByte, BitVec.extractLsb'_toNat, Nat.shiftRight_eq_div_pow]
  omega

@[simp] theorem toNat_joinBytes (hi lo : Byte) : (joinBytes hi lo).toNat = hi.toNat * 256 + lo.toNat := by
  have := lo.isLt
  show (hi ++ lo).toNat = _
  rw [BitVec.toNat_append, ← Nat.shiftLeft_add_eq_or_of_lt this, Nat.shiftLeft_eq]

@[simp] theorem joinBytes_highByte_lowByte (v : Half) : joinBytes (highByte v) (lowByte v) = v := by
  apply BitVec.eq_of_toNat_eq
  simp
  omega

@[simp] theorem highByte_joinBytes (hi lo : Byte) : highByte (joinBytes hi lo) = hi := by
  apply BitVec.eq_of_toNat_eq
  have := lo.isLt
  simp
  omega

@[simp] theorem lowByte_joinBytes (hi lo : Byte) : lowByte (joinBytes hi lo) = lo := by
  apply BitVec.eq_of_toNat_eq
  have := lo.isLt
  simp
  omega

theorem joinBytes_eq_iff {hi lo : Byte} {v : Half} : joinBytes hi lo = v ↔ hi = highByte v ∧ lo = lowByte v := by
  constructor
  · rintro rfl; simp
  · rintro ⟨rfl, rfl⟩; simp

/-! ## The fields of a frame, of a frame written `body ++ [lo, hi]` -/

theorem frameByte_of_lt {r : List Byte} {i : Nat} (h : i < r.length) : frameByte r i = r[i] := by
  simp [frameByte, h]

@[simp] theorem frameBody_append (body : List Byte) (lo hi : Byte) : frameBody (body ++ [lo, hi]) = body := by
  simp [frameBody]

@[simp] theorem receivedCrc_append (body : List Byte) (lo hi : Byte) :
    receivedCrc (body ++ [lo, hi]) = joinBytes hi lo := by
  have h1 : (body ++ [lo, hi]).length = body.length + 2 := by simp
  simp [receivedCrc, frameByte, List.getD_eq_getElem?_getD]

theorem frameByte_append_of_lt {body tail : List Byte} {i : Nat} (h : i < body.length) :
    frameByte (body ++ tail) i = frameByte body i := by
  simp [frameByte, List.getD_eq_getElem?_getD, List.getElem?_append_left h]

@[simp] theorem frameByte_cons_zero (b : Byte) (r : List Byte) : frameByte (b :: r) 0 = b := rfl

@[simp] theorem frameByte_cons_succ (b : Byte) (r : List Byte) (i : Nat) :
    frameByte (b :: r) (i + 1) = frameByte r i := rfl

theorem isSupportedFunction_iff {f : Byte} : isSupportedFunction f = true ↔ f = 0x03#8 ∨ f = 0x05#8 := by
  simp [isSupportedFunction]

/-- A sequence of at least two bytes is a body and its two trailing bytes. -/
theorem exists_body {r : List Byte} (h : 2 ≤ r.length) : ∃ body lo hi, r = body ++ [lo, hi] := by
  refine ⟨r.take (r.length - 2), r[r.length - 2], r[r.length - 1], ?_⟩
  have hdrop : r.drop (r.length - 2) = [r[r.length - 2], r[r.length - 1]] := by
    rw [List.drop_eq_getElem_cons (by omega), List.drop_eq_getElem_cons (by omega), List.drop_of_length_le (by omega)]
    simp only [show r.length - 2 + 1 = r.length - 1 by omega]
  rw [← hdrop, List.take_append_drop]

end Sys2Proof.Machine
end

