-- ==== Sys2Proof/Laws/Memory.lean ====
section
/-! SUPPORT. The laws of the frame buffers: read after write, the canonical form, and runs of bytes. -/

namespace Sys2Proof.Machine

@[simp] theorem Memory.read_nil (k : Nat) : Memory.read [] k = none := rfl

theorem Memory.read_cons (a : Nat) (v : Byte) (m : Memory) (k : Nat) :
    Memory.read ((a, v) :: m) k = if a = k then some v else Memory.read m k := rfl

@[simp] theorem Memory.read_write_self (m : Memory) (k : Nat) (v : Byte) : (Memory.write m k v).read k = some v := by
  induction m with
  | nil => simp [Memory.write, Memory.read]
  | cons c m ih =>
    obtain ⟨a, w⟩ := c
    unfold Memory.write
    split_ifs with h1 h2
    · simp [Memory.read]
    · simp [Memory.read]
    · rw [Memory.read_cons, if_neg (Ne.symm h2), ih]

theorem Memory.read_write_of_ne (m : Memory) {k j : Nat} (v : Byte) (h : j ≠ k) :
    (Memory.write m k v).read j = m.read j := by
  induction m with
  | nil => simp [Memory.write, Memory.read, Ne.symm h]
  | cons c m ih =>
    obtain ⟨a, w⟩ := c
    unfold Memory.write
    split_ifs with h1 h2
    · rw [Memory.read_cons, if_neg (Ne.symm h)]
    · subst h2; simp [Memory.read_cons, Ne.symm h]
    · rw [Memory.read_cons, Memory.read_cons, ih]

theorem Memory.read_write (m : Memory) (k j : Nat) (v : Byte) :
    (Memory.write m k v).read j = if j = k then some v else m.read j := by
  split_ifs with h
  · subst h; exact Memory.read_write_self m j v
  · exact Memory.read_write_of_ne m v h

/-- Writing the same byte twice is writing it once. -/
@[simp] theorem Memory.write_write_self (m : Memory) (k : Nat) (v : Byte) :
    Memory.write (Memory.write m k v) k v = Memory.write m k v := by
  induction m with
  | nil => simp [Memory.write]
  | cons c m ih =>
    obtain ⟨a, w⟩ := c
    by_cases h1 : k < a
    · simp [Memory.write, h1]
    · by_cases h2 : k = a
      · simp [Memory.write, h2]
      · simp [Memory.write, h1, h2, ih]

theorem Memory.mem_write {m : Memory} {k : Nat} {v : Byte} {c : Host.Cell} (h : c ∈ Memory.write m k v) :
    c = (k, v) ∨ c ∈ m := by
  induction m with
  | nil => simpa [Memory.write] using h
  | cons d m ih =>
    obtain ⟨a, w⟩ := d
    unfold Memory.write at h
    split_ifs at h with h1 h2
    · simpa using h
    · rcases List.mem_cons.mp h with h | h
      · exact .inl h
      · exact .inr (List.mem_cons_of_mem _ h)
    · rcases List.mem_cons.mp h with h | h
      · exact .inr (h ▸ List.mem_cons_self ..)
      · exact (ih h).imp id (List.mem_cons_of_mem _)

/-- A write keeps the canonical form. -/
theorem Memory.wf_write {m : Memory} (hm : m.wf) (k : Nat) (v : Byte) : (Memory.write m k v).wf := by
  induction m with
  | nil => simp [Memory.write, Memory.wf]
  | cons c m ih =>
    obtain ⟨a, w⟩ := c
    obtain ⟨hhead, htail⟩ := List.pairwise_cons.mp hm
    unfold Memory.write
    split_ifs with h1 h2
    · refine List.pairwise_cons.mpr ⟨fun d hd => ?_, hm⟩
      rcases List.mem_cons.mp hd with rfl | hd
      · exact h1
      · exact Nat.lt_trans h1 (hhead d hd)
    · subst h2; exact List.pairwise_cons.mpr ⟨hhead, htail⟩
    · refine List.pairwise_cons.mpr ⟨fun d hd => ?_, ih htail⟩
      rcases Memory.mem_write hd with rfl | hd
      · simp only; omega
      · exact hhead d hd

theorem Memory.inBuffer_write {m : Memory} (hm : m.inBuffer) {k : Nat} (hk : k < Config.bufferSize) (v : Byte) :
    (Memory.write m k v).inBuffer := by
  intro c hc
  rcases Memory.mem_write hc with rfl | hc
  · exact hk
  · exact hm c hc

theorem Memory.read_eq_none_of_lt {m : Memory} {k : Nat} (h : ∀ c ∈ m, k < c.1) : m.read k = none := by
  induction m with
  | nil => rfl
  | cons c m ih =>
    obtain ⟨a, w⟩ := c
    have ha : k < a := h (a, w) (List.mem_cons_self ..)
    rw [Memory.read_cons, if_neg (by omega)]
    exact ih fun d hd => h d (List.mem_cons_of_mem _ hd)

/-- A byte outside the buffer holds no value. -/
theorem Memory.read_eq_none_of_inBuffer {m : Memory} (hm : m.inBuffer) {k : Nat} (hk : Config.bufferSize ≤ k) :
    m.read k = none := by
  induction m with
  | nil => rfl
  | cons c m ih =>
    obtain ⟨a, w⟩ := c
    have ha : a < Config.bufferSize := hm (a, w) (List.mem_cons_self ..)
    rw [Memory.read_cons, if_neg (by omega)]
    exact ih fun d hd => hm d (List.mem_cons_of_mem _ hd)

/-- Writing what a canonical buffer already holds changes nothing. -/
theorem Memory.write_of_read {m : Memory} (hm : m.wf) {k : Nat} {v : Byte} (h : m.read k = some v) :
    Memory.write m k v = m := by
  induction m with
  | nil => simp at h
  | cons c m ih =>
    obtain ⟨a, w⟩ := c
    obtain ⟨hhead, htail⟩ := List.pairwise_cons.mp hm
    rw [Memory.read_cons] at h
    by_cases ha : a = k
    · subst ha
      simp only [if_true, Option.some.injEq] at h
      subst h; simp [Memory.write]
    · rw [if_neg ha] at h
      have hka : ¬ k < a := by
        intro hlt
        have hnone : Memory.read m k = none :=
          Memory.read_eq_none_of_lt fun d hd => Nat.lt_trans hlt (hhead d hd)
        simp [hnone] at h
      simp [Memory.write, hka, Ne.symm ha, ih htail h]

/-- Canonical buffers that read the same are the same list. -/
theorem Memory.eq_of_sameBytes {m m' : Memory} (hm : m.wf) (hm' : m'.wf) (h : m.SameBytes m') : m = m' := by
  induction m generalizing m' with
  | nil =>
    cases m' with
    | nil => rfl
    | cons c m' => obtain ⟨a, w⟩ := c; have := h a; simp [Memory.read_cons] at this
  | cons c m ih =>
    obtain ⟨a, v⟩ := c
    cases m' with
    | nil => have := h a; simp [Memory.read_cons] at this
    | cons c' m' =>
      obtain ⟨b, w⟩ := c'
      obtain ⟨hhead, htail⟩ := List.pairwise_cons.mp hm
      obtain ⟨hhead', htail'⟩ := List.pairwise_cons.mp hm'
      have hab : a = b := by
        rcases Nat.lt_trichotomy a b with hlt | heq | hlt
        · have h1 := h a
          rw [Memory.read_cons, Memory.read_cons, if_pos rfl, if_neg (by omega),
            Memory.read_eq_none_of_lt fun d hd => Nat.lt_trans hlt (hhead' d hd)] at h1
          simp at h1
        · exact heq
        · have h1 := h b
          rw [Memory.read_cons, Memory.read_cons, if_pos rfl, if_neg (by omega),
            Memory.read_eq_none_of_lt fun d hd => Nat.lt_trans hlt (hhead d hd)] at h1
          simp at h1
      subst hab
      have hvw : v = w := by
        have h1 := h a
        simp only [Memory.read_cons, if_true, Option.some.injEq] at h1
        exact h1.symm
      subst hvw
      refine congrArg _ (ih htail htail' fun k => ?_)
      by_cases hk : a = k
      · subst hk
        rw [Memory.read_eq_none_of_lt hhead, Memory.read_eq_none_of_lt hhead']
      · have h1 := h k
        simpa [Memory.read_cons, hk] using h1

theorem reset_buffers_canonical :
    State.reset.txbuf.wf ∧ State.reset.rxbuf.wf ∧ State.reset.txbuf.inBuffer ∧ State.reset.rxbuf.inBuffer := by
  decide

/-! ## Runs of bytes -/

theorem Memory.Holds.head {m : Memory} {i : Nat} {b : Byte} {bs : List Byte} (h : m.Holds i (b :: bs)) :
    m.read i = some b := by
  simpa using h 0 (by simp)

theorem Memory.Holds.tail {m : Memory} {i : Nat} {b : Byte} {bs : List Byte} (h : m.Holds i (b :: bs)) :
    m.Holds (i + 1) bs := by
  intro k hk
  have := h (k + 1) (by simpa using hk)
  rw [show i + 1 + k = i + (k + 1) by omega]
  simpa using this

theorem Memory.Holds.cons {m : Memory} {i : Nat} {b : Byte} {bs : List Byte} (hb : m.read i = some b)
    (hbs : m.Holds (i + 1) bs) : m.Holds i (b :: bs) := by
  intro k hk
  cases k with
  | zero => simpa using hb
  | succ k =>
    have := hbs k (by simpa using hk)
    rw [show i + (k + 1) = i + 1 + k by omega]
    simpa using this

/-- Reading a run succeeds exactly with the bytes the buffer holds there. -/
theorem Memory.readBytes_eq_ok_iff {m : Memory} {i n : Nat} {bs : List Byte} :
    m.readBytes i n = .ok bs ↔ bs.length = n ∧ m.Holds i bs := by
  induction n generalizing i bs with
  | zero =>
    cases bs with
    | nil => simp [Memory.readBytes, Memory.Holds]
    | cons b bs => simp [Memory.readBytes]
  | succ n ih =>
    cases hb : m.read i with
    | none =>
      simp only [Memory.readBytes, hb]
      constructor
      · intro h; cases h
      · rintro ⟨hlen, hh⟩
        cases bs with
        | nil => simp at hlen
        | cons b bs => have := hh.head; simp [hb] at this
    | some b =>
      simp only [Memory.readBytes, hb]
      cases hr : m.readBytes (i + 1) n with
      | error j =>
        simp only
        constructor
        · intro h; cases h
        · rintro ⟨hlen, hh⟩
          cases bs with
          | nil => simp at hlen
          | cons b' bs =>
            have := (ih (i := i + 1) (bs := bs)).mpr ⟨by simpa using hlen, hh.tail⟩
            simp [hr] at this
      | ok rest =>
        have hrest := (ih (i := i + 1) (bs := rest)).mp hr
        simp only [Except.ok.injEq]
        constructor
        · rintro rfl
          exact ⟨by simp [hrest.1], hrest.2.cons hb⟩
        · rintro ⟨hlen, hh⟩
          cases bs with
          | nil => simp at hlen
          | cons b' bs =>
            have h1 := hh.head
            have h2 := (ih (i := i + 1) (bs := bs)).mpr ⟨by simpa using hlen, hh.tail⟩
            rw [hb] at h1; rw [hr] at h2
            cases h1; cases h2; rfl

/-- Reading a run fails at its first byte without a value. -/
theorem Memory.readBytes_eq_error_iff {m : Memory} {i n j : Nat} :
    m.readBytes i n = .error j ↔
      i ≤ j ∧ j < i + n ∧ m.read j = none ∧ ∀ k, i ≤ k → k < j → (m.read k).isSome := by
  induction n generalizing i with
  | zero =>
    simp only [Memory.readBytes]
    constructor
    · intro h; cases h
    · rintro ⟨h1, h2, -⟩; omega
  | succ n ih =>
    cases hb : m.read i with
    | none =>
      simp only [Memory.readBytes, hb, Except.error.injEq]
      constructor
      · rintro rfl; exact ⟨by omega, by omega, hb, fun k h1 h2 => by omega⟩
      · rintro ⟨h1, h2, h3, h4⟩
        by_contra hne
        have := h4 i (by omega) (by omega)
        simp [hb] at this
    | some b =>
      simp only [Memory.readBytes, hb]
      have key : m.readBytes (i + 1) n = .error j ↔
          i ≤ j ∧ j < i + (n + 1) ∧ m.read j = none ∧ ∀ k, i ≤ k → k < j → (m.read k).isSome := by
        rw [ih]
        constructor
        · rintro ⟨h1, h2, h3, h4⟩
          refine ⟨by omega, by omega, h3, fun k hk1 hk2 => ?_⟩
          by_cases hki : k = i
          · subst hki; simp [hb]
          · exact h4 k (by omega) hk2
        · rintro ⟨h1, h2, h3, h4⟩
          have hne : j ≠ i := by rintro rfl; simp [hb] at h3
          exact ⟨by omega, by omega, h3, fun k hk1 hk2 => h4 k (by omega) hk2⟩
      rw [← key]
      cases m.readBytes (i + 1) n <;> simp

theorem State.rdRange_eq_ok_iff {s : State} {buf : BufferName} {i n : Nat} {bs : List Byte} :
    s.rdRange buf i n = .ok bs ↔ bs.length = n ∧ (s.buffer buf).Holds i bs := by
  rw [← Memory.readBytes_eq_ok_iff, State.rdRange]
  cases (s.buffer buf).readBytes i n <;> simp

theorem State.rdRange_eq_error_iff {s : State} {buf : BufferName} {i n : Nat} {f : Fault} :
    s.rdRange buf i n = .error f ↔
      ∃ j, f = .unwrittenByte buf j ∧ i ≤ j ∧ j < i + n ∧ (s.buffer buf).read j = none ∧
        ∀ k, i ≤ k → k < j → ((s.buffer buf).read k).isSome := by
  constructor
  · intro h
    unfold State.rdRange at h
    split at h
    · cases h
    · rename_i j hj
      cases h
      exact ⟨j, rfl, Memory.readBytes_eq_error_iff.mp hj⟩
  · rintro ⟨j, rfl, h⟩
    rw [State.rdRange, Memory.readBytes_eq_error_iff.mpr h]

end Sys2Proof.Machine
end

