-- ==== Sys2Proof/Laws/State.lean ====
section
/-! SUPPORT. For each named update of the state, the value of every field after it. -/

namespace Sys2Proof.Machine

/-! ## `finish` -/

@[simp] theorem finish_status (o : OutcomeTag) (r : Reason) (s : State) : (finish o r s).status = o.code := rfl
@[simp] theorem finish_reason (o : OutcomeTag) (r : Reason) (s : State) : (finish o r s).reason = r.code := rfl
@[simp] theorem finish_addr (o : OutcomeTag) (r : Reason) (s : State) : (finish o r s).addr = s.addr := rfl
@[simp] theorem finish_func (o : OutcomeTag) (r : Reason) (s : State) : (finish o r s).func = s.func := rfl
@[simp] theorem finish_plen (o : OutcomeTag) (r : Reason) (s : State) : (finish o r s).plen = s.plen := rfl
@[simp] theorem finish_data (o : OutcomeTag) (r : Reason) (s : State) : (finish o r s).data = s.data := rfl
@[simp] theorem finish_crc (o : OutcomeTag) (r : Reason) (s : State) : (finish o r s).crc = s.crc := rfl
@[simp] theorem finish_txlen (o : OutcomeTag) (r : Reason) (s : State) : (finish o r s).txlen = s.txlen := rfl
@[simp] theorem finish_rxlen (o : OutcomeTag) (r : Reason) (s : State) : (finish o r s).rxlen = s.rxlen := rfl
@[simp] theorem finish_nreg (o : OutcomeTag) (r : Reason) (s : State) : (finish o r s).nreg = s.nreg := rfl
@[simp] theorem finish_txbuf (o : OutcomeTag) (r : Reason) (s : State) : (finish o r s).txbuf = s.txbuf := rfl
@[simp] theorem finish_rxbuf (o : OutcomeTag) (r : Reason) (s : State) : (finish o r s).rxbuf = s.rxbuf := rfl
@[simp] theorem finish_fault (o : OutcomeTag) (r : Reason) (s : State) : (finish o r s).fault = s.fault := rfl
@[simp] theorem finish_pending (o : OutcomeTag) (r : Reason) (s : State) : (finish o r s).pending = s.pending := rfl
@[simp] theorem finish_readData (o : OutcomeTag) (r : Reason) (s : State) : (finish o r s).readData = s.readData := rfl
@[simp] theorem finish_decoded (o : OutcomeTag) (r : Reason) (s : State) : (finish o r s).decoded = s.decoded := rfl

/-! ## `rejectArgument` -/

@[simp] theorem rejectArgument_status (r : Reason) (s : State) : (rejectArgument r s).status = 0x7#4 := rfl
@[simp] theorem rejectArgument_reason (r : Reason) (s : State) : (rejectArgument r s).reason = r.code := rfl
@[simp] theorem rejectArgument_addr (r : Reason) (s : State) : (rejectArgument r s).addr = s.addr := rfl
@[simp] theorem rejectArgument_func (r : Reason) (s : State) : (rejectArgument r s).func = s.func := rfl
@[simp] theorem rejectArgument_plen (r : Reason) (s : State) : (rejectArgument r s).plen = s.plen := rfl
@[simp] theorem rejectArgument_data (r : Reason) (s : State) : (rejectArgument r s).data = s.data := rfl
@[simp] theorem rejectArgument_crc (r : Reason) (s : State) : (rejectArgument r s).crc = s.crc := rfl
@[simp] theorem rejectArgument_txlen (r : Reason) (s : State) : (rejectArgument r s).txlen = s.txlen := rfl
@[simp] theorem rejectArgument_rxlen (r : Reason) (s : State) : (rejectArgument r s).rxlen = s.rxlen := rfl
@[simp] theorem rejectArgument_nreg (r : Reason) (s : State) : (rejectArgument r s).nreg = s.nreg := rfl
@[simp] theorem rejectArgument_txbuf (r : Reason) (s : State) : (rejectArgument r s).txbuf = s.txbuf := rfl
@[simp] theorem rejectArgument_rxbuf (r : Reason) (s : State) : (rejectArgument r s).rxbuf = s.rxbuf := rfl
@[simp] theorem rejectArgument_fault (r : Reason) (s : State) : (rejectArgument r s).fault = s.fault := rfl
@[simp] theorem rejectArgument_pending (r : Reason) (s : State) : (rejectArgument r s).pending = s.pending := rfl
@[simp] theorem rejectArgument_readData (r : Reason) (s : State) : (rejectArgument r s).readData = s.readData := rfl
@[simp] theorem rejectArgument_decoded (r : Reason) (s : State) : (rejectArgument r s).decoded = s.decoded := rfl

/-! ## `resetBlock` -/

@[simp] theorem resetBlock_status (s : State) : (resetBlock s).status = 0#4 := rfl
@[simp] theorem resetBlock_reason (s : State) : (resetBlock s).reason = 0x00#8 := rfl
@[simp] theorem resetBlock_addr (s : State) : (resetBlock s).addr = 0x00#8 := rfl
@[simp] theorem resetBlock_func (s : State) : (resetBlock s).func = 0x00#8 := rfl
@[simp] theorem resetBlock_plen (s : State) : (resetBlock s).plen = 0x00#8 := rfl
@[simp] theorem resetBlock_data (s : State) : (resetBlock s).data = 0x00#8 := rfl
@[simp] theorem resetBlock_crc (s : State) : (resetBlock s).crc = 0xFFFF#16 := rfl
@[simp] theorem resetBlock_txlen (s : State) : (resetBlock s).txlen = 0x0000#16 := rfl
@[simp] theorem resetBlock_rxlen (s : State) : (resetBlock s).rxlen = 0x0000#16 := rfl
@[simp] theorem resetBlock_nreg (s : State) : (resetBlock s).nreg = 0x00#8 := rfl
@[simp] theorem resetBlock_txbuf (s : State) : (resetBlock s).txbuf = [] := rfl
@[simp] theorem resetBlock_rxbuf (s : State) : (resetBlock s).rxbuf = [] := rfl
@[simp] theorem resetBlock_fault (s : State) : (resetBlock s).fault = s.fault := rfl
@[simp] theorem resetBlock_pending (s : State) : (resetBlock s).pending = s.pending := rfl
@[simp] theorem resetBlock_readData (s : State) : (resetBlock s).readData = s.readData := rfl
@[simp] theorem resetBlock_decoded (s : State) : (resetBlock s).decoded = false := rfl

/-! ## ENCODE -/

@[simp] theorem encodeReject_status (r : Reason) (s : State) : (encodeReject r s).status = 0x7#4 := rfl
@[simp] theorem encodeReject_reason (r : Reason) (s : State) : (encodeReject r s).reason = r.code := rfl
@[simp] theorem encodeReject_addr (r : Reason) (s : State) : (encodeReject r s).addr = s.addr := rfl
@[simp] theorem encodeReject_func (r : Reason) (s : State) : (encodeReject r s).func = s.func := rfl
@[simp] theorem encodeReject_plen (r : Reason) (s : State) : (encodeReject r s).plen = s.plen := rfl
@[simp] theorem encodeReject_data (r : Reason) (s : State) : (encodeReject r s).data = s.data := rfl
@[simp] theorem encodeReject_crc (r : Reason) (s : State) : (encodeReject r s).crc = s.crc := rfl
@[simp] theorem encodeReject_txlen (r : Reason) (s : State) : (encodeReject r s).txlen = 0x0000#16 := rfl
@[simp] theorem encodeReject_rxlen (r : Reason) (s : State) : (encodeReject r s).rxlen = s.rxlen := rfl
@[simp] theorem encodeReject_nreg (r : Reason) (s : State) : (encodeReject r s).nreg = s.nreg := rfl
@[simp] theorem encodeReject_txbuf (r : Reason) (s : State) : (encodeReject r s).txbuf = s.txbuf := rfl
@[simp] theorem encodeReject_rxbuf (r : Reason) (s : State) : (encodeReject r s).rxbuf = s.rxbuf := rfl
@[simp] theorem encodeReject_fault (r : Reason) (s : State) : (encodeReject r s).fault = s.fault := rfl
@[simp] theorem encodeReject_pending (r : Reason) (s : State) : (encodeReject r s).pending = s.pending := rfl
@[simp] theorem encodeReject_readData (r : Reason) (s : State) : (encodeReject r s).readData = s.readData := rfl
@[simp] theorem encodeReject_decoded (r : Reason) (s : State) : (encodeReject r s).decoded = s.decoded := rfl

/-! ## ENCODE on success -/

@[simp] theorem encodeBuild_status (p : List Byte) (s : State) : (encodeBuild p s).status = 0x1#4 := rfl
@[simp] theorem encodeBuild_reason (p : List Byte) (s : State) : (encodeBuild p s).reason = 0x00#8 := rfl
@[simp] theorem encodeBuild_addr (p : List Byte) (s : State) : (encodeBuild p s).addr = s.addr := rfl
@[simp] theorem encodeBuild_func (p : List Byte) (s : State) : (encodeBuild p s).func = s.func := rfl
@[simp] theorem encodeBuild_plen (p : List Byte) (s : State) : (encodeBuild p s).plen = s.plen := rfl
@[simp] theorem encodeBuild_data (p : List Byte) (s : State) : (encodeBuild p s).data = s.data := rfl
@[simp] theorem encodeBuild_crc (p : List Byte) (s : State) : (encodeBuild p s).crc = crc16 (s.addr :: s.func :: p) := rfl
@[simp] theorem encodeBuild_txlen (p : List Byte) (s : State) : (encodeBuild p s).txlen = BitVec.ofNat 16 (s.plen.toNat + 4) := rfl
@[simp] theorem encodeBuild_rxlen (p : List Byte) (s : State) : (encodeBuild p s).rxlen = s.rxlen := rfl
@[simp] theorem encodeBuild_nreg (p : List Byte) (s : State) : (encodeBuild p s).nreg = s.nreg := rfl
@[simp] theorem encodeBuild_txbuf (p : List Byte) (s : State) : (encodeBuild p s).txbuf = 
    (((s.txbuf.write 0 s.addr).write 1 s.func).write (s.plen.toNat + 2) (lowByte (crc16 (s.addr :: s.func :: p)))).write
      (s.plen.toNat + 3) (highByte (crc16 (s.addr :: s.func :: p))) := rfl
@[simp] theorem encodeBuild_rxbuf (p : List Byte) (s : State) : (encodeBuild p s).rxbuf = s.rxbuf := rfl
@[simp] theorem encodeBuild_fault (p : List Byte) (s : State) : (encodeBuild p s).fault = s.fault := rfl
@[simp] theorem encodeBuild_pending (p : List Byte) (s : State) : (encodeBuild p s).pending = s.pending := rfl
@[simp] theorem encodeBuild_readData (p : List Byte) (s : State) : (encodeBuild p s).readData = s.readData := rfl
@[simp] theorem encodeBuild_decoded (p : List Byte) (s : State) : (encodeBuild p s).decoded = s.decoded := rfl

/-! ## DECODE before it reads RXBUF -/

@[simp] theorem decodeReject_status (o : OutcomeTag) (r : Reason) (s : State) : (decodeReject o r s).status = o.code := rfl
@[simp] theorem decodeReject_reason (o : OutcomeTag) (r : Reason) (s : State) : (decodeReject o r s).reason = r.code := rfl
@[simp] theorem decodeReject_addr (o : OutcomeTag) (r : Reason) (s : State) : (decodeReject o r s).addr = s.addr := rfl
@[simp] theorem decodeReject_func (o : OutcomeTag) (r : Reason) (s : State) : (decodeReject o r s).func = s.func := rfl
@[simp] theorem decodeReject_plen (o : OutcomeTag) (r : Reason) (s : State) : (decodeReject o r s).plen = s.plen := rfl
@[simp] theorem decodeReject_data (o : OutcomeTag) (r : Reason) (s : State) : (decodeReject o r s).data = s.data := rfl
@[simp] theorem decodeReject_crc (o : OutcomeTag) (r : Reason) (s : State) : (decodeReject o r s).crc = s.crc := rfl
@[simp] theorem decodeReject_txlen (o : OutcomeTag) (r : Reason) (s : State) : (decodeReject o r s).txlen = s.txlen := rfl
@[simp] theorem decodeReject_rxlen (o : OutcomeTag) (r : Reason) (s : State) : (decodeReject o r s).rxlen = s.rxlen := rfl
@[simp] theorem decodeReject_nreg (o : OutcomeTag) (r : Reason) (s : State) : (decodeReject o r s).nreg = 0x00#8 := rfl
@[simp] theorem decodeReject_txbuf (o : OutcomeTag) (r : Reason) (s : State) : (decodeReject o r s).txbuf = s.txbuf := rfl
@[simp] theorem decodeReject_rxbuf (o : OutcomeTag) (r : Reason) (s : State) : (decodeReject o r s).rxbuf = s.rxbuf := rfl
@[simp] theorem decodeReject_fault (o : OutcomeTag) (r : Reason) (s : State) : (decodeReject o r s).fault = s.fault := rfl
@[simp] theorem decodeReject_pending (o : OutcomeTag) (r : Reason) (s : State) : (decodeReject o r s).pending = s.pending := rfl
@[simp] theorem decodeReject_readData (o : OutcomeTag) (r : Reason) (s : State) : (decodeReject o r s).readData = s.readData := rfl
@[simp] theorem decodeReject_decoded (o : OutcomeTag) (r : Reason) (s : State) : (decodeReject o r s).decoded = false := rfl

/-! ## DECODE on a frame -/

@[simp] theorem decodeFrame_status (r : List Byte) (s : State) : (decodeFrame r s).status = (frameVerdict s.addr s.func r).tag.code := rfl
@[simp] theorem decodeFrame_reason (r : List Byte) (s : State) : (decodeFrame r s).reason = (frameVerdict s.addr s.func r).reason.code := rfl
@[simp] theorem decodeFrame_addr (r : List Byte) (s : State) : (decodeFrame r s).addr = s.addr := rfl
@[simp] theorem decodeFrame_func (r : List Byte) (s : State) : (decodeFrame r s).func = s.func := rfl
@[simp] theorem decodeFrame_plen (r : List Byte) (s : State) : (decodeFrame r s).plen = s.plen := rfl
@[simp] theorem decodeFrame_data (r : List Byte) (s : State) : (decodeFrame r s).data = s.data := rfl
@[simp] theorem decodeFrame_crc (r : List Byte) (s : State) : (decodeFrame r s).crc = crc16 (frameBody r) := rfl
@[simp] theorem decodeFrame_txlen (r : List Byte) (s : State) : (decodeFrame r s).txlen = s.txlen := rfl
@[simp] theorem decodeFrame_rxlen (r : List Byte) (s : State) : (decodeFrame r s).rxlen = s.rxlen := rfl
@[simp] theorem decodeFrame_nreg (r : List Byte) (s : State) : (decodeFrame r s).nreg = BitVec.ofNat 8 (frameVerdict s.addr s.func r).nreg := rfl
@[simp] theorem decodeFrame_txbuf (r : List Byte) (s : State) : (decodeFrame r s).txbuf = s.txbuf := rfl
@[simp] theorem decodeFrame_rxbuf (r : List Byte) (s : State) : (decodeFrame r s).rxbuf = s.rxbuf := rfl
@[simp] theorem decodeFrame_fault (r : List Byte) (s : State) : (decodeFrame r s).fault = s.fault := rfl
@[simp] theorem decodeFrame_pending (r : List Byte) (s : State) : (decodeFrame r s).pending = s.pending := rfl
@[simp] theorem decodeFrame_readData (r : List Byte) (s : State) : (decodeFrame r s).readData = s.readData := rfl
@[simp] theorem decodeFrame_decoded (r : List Byte) (s : State) : (decodeFrame r s).decoded = ((frameVerdict s.addr s.func r).tag == .success) := rfl

/-! ## The word that step runs next -/

@[simp] theorem withFetchWord_status (s : State) (nbits w : Nat) : (s.withFetchWord nbits w).status = s.status := rfl
@[simp] theorem withFetchWord_reason (s : State) (nbits w : Nat) : (s.withFetchWord nbits w).reason = s.reason := rfl
@[simp] theorem withFetchWord_addr (s : State) (nbits w : Nat) : (s.withFetchWord nbits w).addr = s.addr := rfl
@[simp] theorem withFetchWord_func (s : State) (nbits w : Nat) : (s.withFetchWord nbits w).func = s.func := rfl
@[simp] theorem withFetchWord_plen (s : State) (nbits w : Nat) : (s.withFetchWord nbits w).plen = s.plen := rfl
@[simp] theorem withFetchWord_data (s : State) (nbits w : Nat) : (s.withFetchWord nbits w).data = s.data := rfl
@[simp] theorem withFetchWord_crc (s : State) (nbits w : Nat) : (s.withFetchWord nbits w).crc = s.crc := rfl
@[simp] theorem withFetchWord_txlen (s : State) (nbits w : Nat) : (s.withFetchWord nbits w).txlen = s.txlen := rfl
@[simp] theorem withFetchWord_rxlen (s : State) (nbits w : Nat) : (s.withFetchWord nbits w).rxlen = s.rxlen := rfl
@[simp] theorem withFetchWord_nreg (s : State) (nbits w : Nat) : (s.withFetchWord nbits w).nreg = s.nreg := rfl
@[simp] theorem withFetchWord_txbuf (s : State) (nbits w : Nat) : (s.withFetchWord nbits w).txbuf = s.txbuf := rfl
@[simp] theorem withFetchWord_rxbuf (s : State) (nbits w : Nat) : (s.withFetchWord nbits w).rxbuf = s.rxbuf := rfl
@[simp] theorem withFetchWord_fault (s : State) (nbits w : Nat) : (s.withFetchWord nbits w).fault = s.fault := rfl
@[simp] theorem withFetchWord_pending (s : State) (nbits w : Nat) : (s.withFetchWord nbits w).pending = .write 0x000 (tableByte nbits w) :: s.pending := rfl
@[simp] theorem withFetchWord_readData (s : State) (nbits w : Nat) : (s.withFetchWord nbits w).readData = s.readData := rfl
@[simp] theorem withFetchWord_decoded (s : State) (nbits w : Nat) : (s.withFetchWord nbits w).decoded = s.decoded := rfl

/-! ## The views -/

/-- The views depend on RXBUF, RXLEN, NREG and whether they are defined, and on nothing else. -/
theorem views_congr {s t : State} (hd : t.decoded = s.decoded) (hb : t.rxbuf = s.rxbuf) (hl : t.rxlen = s.rxlen)
    (hn : t.nreg = s.nreg) :
    t.payloadView = s.payloadView ∧ t.registersView = s.registersView ∧ t.echoView = s.echoView := by
  simp [State.payloadView, State.registersView, State.echoView, State.decodedFunction, hd, hb, hl, hn]

theorem views_of_not_decoded {s : State} (h : s.decoded = false) :
    s.payloadView = none ∧ s.registersView = none ∧ s.echoView = none := by
  simp [State.payloadView, State.registersView, State.echoView, State.decodedFunction, h]

theorem decodedFunction_of_decoded {s : State} (h : s.decoded = true) : s.decodedFunction = s.rxbuf.read 1 := by
  simp [State.decodedFunction, h]

theorem payloadView_of_function {s : State} {f : Byte} (h : s.decodedFunction = some f) :
    s.payloadView = s.rxbuf.slice 2 (s.rxlen.toNat - 4) := by
  simp [State.payloadView, h]

theorem registersView_of_function {s : State} (h : s.decodedFunction = some 0x03#8) :
    s.registersView = (s.rxbuf.slice 3 (2 * s.nreg.toNat)).map registerValues := by
  simp [State.registersView, h]

theorem echoView_of_function {s : State} (h : s.decodedFunction = some 0x05#8) :
    s.echoView = (s.rxbuf.slice 2 4).map registerValues := by
  simp [State.echoView, h]

end Sys2Proof.Machine
end

