-- ==== Sys2Proof/Laws/Exec.lean ====
section
/-! SUPPORT. What each command can do, once: the checks as conditions on the state, one case lemma per command, and the
bytes of a frame. -/

namespace Sys2Proof.Machine

/-! ## The checks -/

theorem encodeError_eq_none_iff {s : State} : encodeError s = none ↔ EncodeArguments s := by
  simp only [encodeError, EncodeArguments, ← isSupportedFunction_iff]
  split_ifs with h1 h2 h3 <;> simp_all <;> omega

theorem decodeError_eq_none_iff {s : State} : decodeError s = none ↔ DecodeArguments s := by
  simp only [decodeError, DecodeArguments, ← isSupportedFunction_iff]
  split_ifs with h1 h2 h3 <;> simp_all

/-- ENCODE's checks fail in the order of 41_frame_codec.md rule R131. -/
theorem encodeError_eq_some {s : State} {r : Reason} (h : encodeError s = some r) :
    r = .addressOutOfRange ∨ r = .functionNotSupported ∨ r = .payloadTooLong := by
  unfold encodeError at h
  split_ifs at h <;> simp_all

theorem decodeError_eq_some {s : State} {o : OutcomeTag} {r : Reason} (h : decodeError s = some (o, r)) :
    (o, r) = (.invalidArgument, .functionNotSupported) ∨ (o, r) = (.invalidArgument, .receivedTooLong) ∨
      (o, r) = (.malformed, .tooShort) := by
  unfold decodeError at h
  split_ifs at h <;> simp_all

/-! ## ENCODE -/

/-- ENCODE on a failed check. -/
theorem execEncode_of_error {s : State} {r : Reason} (h : encodeError s = some r) :
    execEncode s = .next (encodeReject r s) := by
  simp [execEncode, h]

/-- ENCODE when the host has met its duties. -/
theorem execEncode_of_ready {s : State} {p : List Byte} (h : EncodeReady s p) :
    execEncode s = .next (encodeBuild p s) := by
  obtain ⟨hargs, hlen, hp⟩ := h
  have hr : s.rdRange .tx 2 s.plen.toNat = .ok p := State.rdRange_eq_ok_iff.mpr ⟨hlen, hp⟩
  simp [execEncode, encodeError_eq_none_iff.mpr hargs, hr]

/-- All that ENCODE can do. -/
theorem execEncode_cases (s : State) :
    (∃ r, encodeError s = some r ∧ execEncode s = .next (encodeReject r s)) ∨
    (∃ p, EncodeReady s p ∧ execEncode s = .next (encodeBuild p s)) ∨
    (∃ f, EncodeArguments s ∧ s.rdRange .tx 2 s.plen.toNat = .error f ∧ execEncode s = .fault f) := by
  cases he : encodeError s with
  | some r => exact .inl ⟨r, rfl, execEncode_of_error he⟩
  | none =>
    have hargs := encodeError_eq_none_iff.mp he
    cases hr : s.rdRange .tx 2 s.plen.toNat with
    | error f => exact .inr (.inr ⟨f, hargs, rfl, by simp [execEncode, he, hr]⟩)
    | ok p =>
      obtain ⟨hlen, hp⟩ := State.rdRange_eq_ok_iff.mp hr
      exact .inr (.inl ⟨p, ⟨hargs, hlen, hp⟩, execEncode_of_ready ⟨hargs, hlen, hp⟩⟩)

/-! ## DECODE -/

theorem execDecode_of_error {s : State} {o : OutcomeTag} {r : Reason} (h : decodeError s = some (o, r)) :
    execDecode s = .next (decodeReject o r s) := by
  simp [execDecode, h]

theorem execDecode_of_ready {s : State} {r : List Byte} (h : DecodeReady s r) :
    execDecode s = .next (decodeFrame r s) := by
  obtain ⟨hargs, hlen, hp⟩ := h
  have hr : s.rdRange .rx 0 s.rxlen.toNat = .ok r := State.rdRange_eq_ok_iff.mpr ⟨hlen, hp⟩
  simp [execDecode, decodeError_eq_none_iff.mpr hargs, hr]

/-- All that DECODE can do. -/
theorem execDecode_cases (s : State) :
    (∃ o r, decodeError s = some (o, r) ∧ execDecode s = .next (decodeReject o r s)) ∨
    (∃ r, DecodeReady s r ∧ execDecode s = .next (decodeFrame r s)) ∨
    (∃ f, DecodeArguments s ∧ s.rdRange .rx 0 s.rxlen.toNat = .error f ∧ execDecode s = .fault f) := by
  cases he : decodeError s with
  | some e =>
    obtain ⟨o, r⟩ := e
    exact .inl ⟨o, r, rfl, execDecode_of_error he⟩
  | none =>
    have hargs := decodeError_eq_none_iff.mp he
    cases hr : s.rdRange .rx 0 s.rxlen.toNat with
    | error f => exact .inr (.inr ⟨f, hargs, rfl, by simp [execDecode, he, hr]⟩)
    | ok r =>
      obtain ⟨hlen, hp⟩ := State.rdRange_eq_ok_iff.mp hr
      exact .inr (.inl ⟨r, ⟨hargs, hlen, hp⟩, execDecode_of_ready ⟨hargs, hlen, hp⟩⟩)

/-- All that steps 2 to 6 can answer (41_frame_codec.md rule R152). -/
theorem frameVerdict_cases (addr func : Byte) (r : List Byte) :
    let v := frameVerdict addr func r
    v = ⟨.checksumMismatch, .none, 0⟩ ∨ v = ⟨.addressMismatch, .none, 0⟩ ∨ v = ⟨.malformed, .unexpectedFunction, 0⟩ ∨
    v = ⟨.malformed, .lengthMismatch, 0⟩ ∨ (v = ⟨.success, .none, 0⟩ ∧ func ≠ 0x03#8 ∧ r.length = 8) ∨
    (v = ⟨.success, .none, (frameByte r 2).toNat / 2⟩ ∧ func = 0x03#8 ∧ r.length = (frameByte r 2).toNat + 5 ∧
      (frameByte r 2).toNat % 2 = 0) := by
  simp only [frameVerdict, readHoldingVerdict, writeCoilVerdict]
  split_ifs <;> simp_all

/-! ## Frames -/

/-- The received CRC bytes match exactly when they are the two halves of the recomputed CRC. -/
theorem crcMatches_iff {body : List Byte} {lo hi : Byte} :
    CrcMatches body lo hi ↔ lo = lowByte (crc16 body) ∧ hi = highByte (crc16 body) := by
  unfold CrcMatches
  rw [← toNat_joinBytes]
  constructor
  · intro h
    exact (joinBytes_eq_iff.mp (BitVec.eq_of_toNat_eq h)).symm
  · rintro ⟨rfl, rfl⟩
    simp

theorem length_frameOf (addr func : Byte) (p : List Byte) : (frameOf addr func p).length = p.length + 4 := by
  simp [frameOf]

/-- Byte `i` of TXBUF after ENCODE. -/
theorem encodeBuild_read (s : State) (p : List Byte) (i : Nat) :
    (encodeBuild p s).txbuf.read i =
      if i = s.plen.toNat + 3 then some (highByte (crc16 (s.addr :: s.func :: p)))
      else if i = s.plen.toNat + 2 then some (lowByte (crc16 (s.addr :: s.func :: p)))
      else if i = 1 then some s.func else if i = 0 then some s.addr else s.txbuf.read i := by
  rw [encodeBuild_txbuf]
  simp only [Memory.read_write]

theorem Memory.slice_of_holds {m : Memory} {i n : Nat} {bs : List Byte} (hl : bs.length = n) (h : m.Holds i bs) :
    m.slice i n = some bs := by
  rw [Memory.slice, Memory.readBytes_eq_ok_iff.mpr ⟨hl, h⟩]

/-! ## exec, arm by arm -/

@[simp] theorem exec_nop (s : State) : exec .nop s = .next s := rfl
@[simp] theorem exec_crcInit (s : State) : exec .crcInit s = .next { s with crc := 0xFFFF#16 } := rfl
@[simp] theorem exec_crcByte (s : State) : exec .crcByte s = .next { s with crc := crcByte s.crc s.data } := rfl
@[simp] theorem exec_encode (s : State) : exec .encode s = execEncode s := rfl
@[simp] theorem exec_decode (s : State) : exec .decode s = execDecode s := rfl
@[simp] theorem exec_reserved05 (s : State) : exec .reserved05 s = .next (rejectArgument .reservedCommand s) := rfl
@[simp] theorem exec_reserved06 (c : Byte) (s : State) :
    exec (.reserved06 c) s = .next (rejectArgument .reservedCommand s) := rfl
@[simp] theorem exec_reserved08 (c : Byte) (s : State) :
    exec (.reserved08 c) s = .next (rejectArgument .reservedCommand s) := rfl
@[simp] theorem exec_reserved10 (c : Byte) (s : State) :
    exec (.reserved10 c) s = .next (rejectArgument .reservedCommand s) := rfl
@[simp] theorem exec_reserved20 (c : Byte) (s : State) :
    exec (.reserved20 c) s = .next (rejectArgument .reservedCommand s) := rfl
@[simp] theorem exec_reserved40 (c : Byte) (s : State) :
    exec (.reserved40 c) s = .next (rejectArgument .reservedCommand s) := rfl
@[simp] theorem exec_reserved80 (c : Byte) (s : State) :
    exec (.reserved80 c) s = .next (rejectArgument .reservedCommand s) := rfl

/-- All that a command can do when it answers a next state. -/
theorem exec_next_cases {i : Instr} {s t : State} (h : exec i s = .next t) :
    t = s ∨ t = { s with crc := 0xFFFF#16 } ∨ t = { s with crc := crcByte s.crc s.data } ∨
    (∃ r, encodeError s = some r ∧ t = encodeReject r s) ∨ (∃ p, EncodeReady s p ∧ t = encodeBuild p s) ∨
    (∃ o r, decodeError s = some (o, r) ∧ t = decodeReject o r s) ∨ (∃ r, DecodeReady s r ∧ t = decodeFrame r s) ∨
    t = rejectArgument .reservedCommand s := by
  cases i with
  | encode =>
    rcases execEncode_cases s with ⟨r, he, hx⟩ | ⟨p, hp, hx⟩ | ⟨f, -, -, hx⟩ <;>
      rw [exec_encode, hx] at h <;> cases h
    · exact .inr (.inr (.inr (.inl ⟨r, he, rfl⟩)))
    · exact .inr (.inr (.inr (.inr (.inl ⟨p, hp, rfl⟩))))
  | decode =>
    rcases execDecode_cases s with ⟨o, r, he, hx⟩ | ⟨r, hr, hx⟩ | ⟨f, -, -, hx⟩ <;>
      rw [exec_decode, hx] at h <;> cases h
    · exact .inr (.inr (.inr (.inr (.inr (.inl ⟨o, r, he, rfl⟩)))))
    · exact .inr (.inr (.inr (.inr (.inr (.inr (.inl ⟨r, hr, rfl⟩))))))
  | _ => cases h; simp

end Sys2Proof.Machine
end

