-- ==== Sys2Proof/Laws/PerInstr.lean ====
section
/-! SUPPORT. What holds of every command as syntax, one lemma per constructor. -/

namespace Sys2Proof.Laws

/-- A well-formed command's byte lies in its own row of the opcode table. -/
def EncodesInItsRow.Statement (i : Instr) : Prop :=
  i.wellFormed = true → codeInRow i.row.1 i.row.2 (encode i) = true

theorem EncodesInItsRow.nop : EncodesInItsRow.Statement .nop := fun _ => rfl
theorem EncodesInItsRow.crcInit : EncodesInItsRow.Statement .crcInit := fun _ => rfl
theorem EncodesInItsRow.crcByte : EncodesInItsRow.Statement .crcByte := fun _ => rfl
theorem EncodesInItsRow.encode : EncodesInItsRow.Statement .encode := fun _ => rfl
theorem EncodesInItsRow.decode : EncodesInItsRow.Statement .decode := fun _ => rfl
theorem EncodesInItsRow.reserved05 : EncodesInItsRow.Statement .reserved05 := fun _ => rfl
theorem EncodesInItsRow.reserved06 (code : Byte) : EncodesInItsRow.Statement (.reserved06 code) := fun h => h
theorem EncodesInItsRow.reserved08 (code : Byte) : EncodesInItsRow.Statement (.reserved08 code) := fun h => h
theorem EncodesInItsRow.reserved10 (code : Byte) : EncodesInItsRow.Statement (.reserved10 code) := fun h => h
theorem EncodesInItsRow.reserved20 (code : Byte) : EncodesInItsRow.Statement (.reserved20 code) := fun h => h
theorem EncodesInItsRow.reserved40 (code : Byte) : EncodesInItsRow.Statement (.reserved40 code) := fun h => h
theorem EncodesInItsRow.reserved80 (code : Byte) : EncodesInItsRow.Statement (.reserved80 code) := fun h => h

end Sys2Proof.Laws
end

