-- ==== Sys2Proof/Laws/Step.lean ====
section
/-! SUPPORT. What one step can do, once: the register map, the host's accesses, and the step. -/

namespace Sys2Proof.Machine

/-! ## The register map -/

theorem locate_register {off : Nat} (h : off < 0x100) : locate off = some (registerAt off) := by
  simp [locate, h]

theorem locate_txbuf {i : Nat} (h : i < 0x100) : locate (0x100 + i) = some (.txbuf i) := by
  rw [locate, if_neg (by omega), if_pos (by omega), Nat.add_sub_cancel_left]

theorem locate_rxbuf {i : Nat} (h : i < 0x100) : locate (0x200 + i) = some (.rxbuf i) := by
  rw [locate, if_neg (by omega), if_neg (by omega), if_pos (by omega), Nat.add_sub_cancel_left]

theorem locate_high {off : Nat} (h1 : 0x300 ≤ off) (h2 : off < 0x400) : locate off = some .reserved := by
  rw [locate, if_neg (by omega), if_neg (by omega), if_neg (by omega), if_pos h2]

theorem locate_outside {off : Nat} (h : 0x400 ≤ off) : locate off = none := by
  rw [locate, if_neg (by omega), if_neg (by omega), if_neg (by omega), if_neg (by simpa using h)]

/-- Only offset 0x000 is CMD. -/
theorem registerAt_eq_cmd_iff {off : Nat} : registerAt off = .cmd ↔ off = 0 := by
  unfold registerAt
  split <;> simp_all

theorem locate_eq_cmd_iff {off : Nat} : locate off = some .cmd ↔ off = 0 := by
  simp only [locate]
  split_ifs <;> simp_all [registerAt_eq_cmd_iff] <;> omega

/-- Every offset of the register space has a location. -/
theorem locate_exists {off : Nat} (h : off < 0x400) : ∃ l, locate off = some l := by
  by_cases h1 : off < 0x100
  · exact ⟨_, locate_register h1⟩
  by_cases h2 : off < 0x200
  · obtain ⟨i, rfl⟩ := Nat.exists_eq_add_of_le (Nat.le_of_not_lt h1)
    exact ⟨_, locate_txbuf (by omega)⟩
  by_cases h3 : off < 0x300
  · obtain ⟨i, rfl⟩ := Nat.exists_eq_add_of_le (Nat.le_of_not_lt h2)
    exact ⟨_, locate_rxbuf (by omega)⟩
  · exact ⟨_, locate_high (Nat.le_of_not_lt h3) h⟩

theorem registerAt_reserved {off : Nat} (h : 0x00F ≤ off) : registerAt off = .reserved := by
  unfold registerAt
  split <;> first | omega | rfl

theorem registerAt_ne_buffer (off i : Nat) : registerAt off ≠ .txbuf i ∧ registerAt off ≠ .rxbuf i := by
  unfold registerAt
  split <;> simp

/-- A buffer location lies inside its buffer. -/
theorem locate_buffer_lt {off i : Nat} (h : locate off = some (.txbuf i) ∨ locate off = some (.rxbuf i)) :
    i < Config.bufferSize := by
  have hreg : ∀ j, registerAt off ≠ .txbuf j ∧ registerAt off ≠ .rxbuf j := by
    intro j; unfold registerAt; split <;> simp
  simp only [locate] at h
  split_ifs at h <;> simp_all <;> omega

/-! ## The host's accesses -/

@[simp] theorem hostWrite_cmd (v : Byte) (s : State) : hostWrite 0 v s = exec (decodeByte v) s := rfl

theorem hostRead_of_ok {off : Nat} {l : Location} {v : Byte} {s : State} (hl : locate off = some l)
    (h : readLocation l s = .ok v) : hostRead off s = .next { s with readData := some v } := by
  simp [hostRead, hl, h]

theorem hostWrite_of_located {off : Nat} {l : Location} {v : Byte} {s : State} (hl : locate off = some l)
    (h : l ≠ .cmd) : hostWrite off v s = .next (writeLocation l v s) := by
  cases l <;> simp_all [hostWrite]

/-- All that a host read can do when it answers a next state. -/
theorem hostRead_next {off : Nat} {s t : State} (h : hostRead off s = .next t) :
    ∃ v, t = { s with readData := some v } := by
  unfold hostRead at h
  split at h
  · cases h
  · split at h
    · rename_i v _; exact ⟨v, by cases h; rfl⟩
    · cases h

/-- All that a host write can do when it answers a next state. -/
theorem hostWrite_next {off : Nat} {v : Byte} {s t : State} (h : hostWrite off v s = .next t) :
    (off = 0 ∧ exec (decodeByte v) s = .next t) ∨
    (∃ l, locate off = some l ∧ l ≠ .cmd ∧ t = writeLocation l v s) := by
  cases hl : locate off with
  | none => simp [hostWrite, hl] at h
  | some l =>
    by_cases hc : l = .cmd
    · subst hc
      have h0 := locate_eq_cmd_iff.mp hl
      subst h0
      exact .inl ⟨rfl, h⟩
    · rw [hostWrite_of_located hl hc] at h
      cases h
      exact .inr ⟨l, rfl, hc, rfl⟩

/-- A host write to a location that is not CMD changes none of the result registers and nothing of the port. -/
theorem writeLocation_keeps (l : Location) (v : Byte) (s : State) :
    let t := writeLocation l v s
    (t.status = s.status ∧ t.reason = s.reason ∧ t.crc = s.crc ∧ t.txlen = s.txlen ∧ t.nreg = s.nreg) ∧ KeepsPort s t := by
  cases l <;> exact ⟨⟨rfl, rfl, rfl, rfl, rfl⟩, rfl, rfl, rfl⟩

/-- A host write to RXLEN or RXBUF ends the views; one to any other location leaves them as they are. -/
theorem writeLocation_views (l : Location) (v : Byte) (s : State) :
    ((l = .rxlenLo ∨ l = .rxlenHi ∨ ∃ i, l = .rxbuf i) ∧ (writeLocation l v s).decoded = false) ∨
    ((l ≠ .rxlenLo ∧ l ≠ .rxlenHi ∧ ∀ i, l ≠ .rxbuf i) ∧ (writeLocation l v s).decoded = s.decoded ∧
      (writeLocation l v s).rxbuf = s.rxbuf ∧ (writeLocation l v s).rxlen = s.rxlen) := by
  cases l <;> simp [writeLocation]

/-! ## The step -/

@[simp] theorem step_of_fault {s : State} {f : Fault} (h : s.fault = some f) : step s = .fault f := by
  simp [step, h]

theorem step_idle {s : State} (hf : s.fault = none) (hp : s.pending = []) : step s = .next s := by
  simp [step, hf, hp]

theorem step_event {s : State} {e : BusEvent} {rest : List BusEvent} (hf : s.fault = none)
    (hp : s.pending = e :: rest) : step s = perform e { s with pending := rest } := by
  simp [step, hf, hp]

theorem advance_of_next {s t : State} (h : step s = .next t) : advance s = t := by
  simp [advance, h, recordStop]

theorem advance_of_fault {s : State} {f : Fault} (h : step s = .fault f) : advance s = { s with fault := some f } := by
  simp [advance, h, recordStop]

/-- All that a step can do when it answers a next state. -/
theorem step_next_cases {s t : State} (h : step s = .next t) :
    s.fault = none ∧
    ((s.pending = [] ∧ t = s) ∨
     ∃ e rest, s.pending = e :: rest ∧
      ((∃ off v, e = .read off ∧ t = { s with pending := rest, readData := some v }) ∨
       (∃ v, e = .write 0 v ∧ exec (decodeByte v) { s with pending := rest } = .next t) ∨
       (∃ off v l, e = .write off v ∧ locate off = some l ∧ l ≠ .cmd ∧
          t = writeLocation l v { s with pending := rest }) ∨
       (e = .reset ∧ t = resetBlock { s with pending := rest }))) := by
  have hf : s.fault = none := by
    rcases hf : s.fault with _ | f
    · rfl
    · rw [step_of_fault hf] at h; cases h
  refine ⟨hf, ?_⟩
  cases hp : s.pending with
  | nil => rw [step_idle hf hp] at h; cases h; exact .inl ⟨rfl, rfl⟩
  | cons e rest =>
    refine .inr ⟨e, rest, rfl, ?_⟩
    rw [step_event hf hp] at h
    cases e with
    | read off =>
      obtain ⟨v, hv⟩ := hostRead_next h
      exact .inl ⟨off, v, rfl, hv⟩
    | write off v =>
      rcases hostWrite_next h with ⟨rfl, hx⟩ | ⟨l, hl, hc, ht⟩
      · exact .inr (.inl ⟨v, rfl, hx⟩)
      · exact .inr (.inr (.inl ⟨off, v, l, rfl, hl, hc, ht⟩))
    | wide off w => cases h
    | reset => cases h; exact .inr (.inr (.inr ⟨rfl, rfl⟩))

end Sys2Proof.Machine
end

