-- ==== Sys2Proof/Tests/Slice0.lean ====
section
/-! SUPPORT. The model's own tests, with expected values from the spec's rules and 95_test_vectors.md, and for every
statement with hypotheses a state that meets them. -/

namespace Sys2Proof.Tests

-- One test after another: checked all at once, they ask for more threads than a small machine gives.
set_option Elab.async false

open Sys2Proof.Machine

/-! ## Helpers -/

/-- A field of the next state, if there is one. -/
def nextField {α : Type} (f : State → α) : Host.Outcome State Fault Refusal → Option α
  | .next t => some (f t)
  | _ => none

/-- Why a run stopped, if it did. -/
def faultOf : Host.Outcome State Fault Refusal → Option Fault
  | .fault f => some f
  | _ => none

/-- Consecutive bytes of a buffer from index `i` on. -/
def fill (i : Nat) : List Byte → Memory
  | [] => []
  | b :: bs => (i, b) :: fill (i + 1) bs

/-- Reset, then ADDR, FUNC, PLEN and the payload written. -/
def loaded (addr func plen : Byte) (p : List Byte) : State :=
  { State.reset with addr := addr, func := func, plen := plen, txbuf := fill 2 p }

/-- Reset, then ADDR, FUNC, RXLEN and the received bytes written. -/
def received (addr func : Byte) (r : List Byte) : State :=
  { State.reset with addr := addr, func := func, rxlen := BitVec.ofNat 16 r.length, rxbuf := fill 0 r }

/-- The frame of 41_frame_codec.md rule R155, without its CRC bytes 5A 60. -/
def readBody : List Byte := [0x01#8, 0x03#8, 0x04#8, 0x00#8, 0x0A#8, 0x01#8, 0x02#8]

/-- The frame of 41_frame_codec.md rule R135, without its CRC bytes 8E 63. -/
def coilBody : List Byte := [0x01#8, 0x05#8, 0x09#8, 0x10#8, 0xFF#8, 0x00#8]

/-! ## WellFormed: an ill-formed term for each check -/

theorem test_wellFormed_reserved06 : (Instr.reserved06 0x08#8).wellFormed = false := by decide
theorem test_wellFormed_reserved08 : (Instr.reserved08 0x07#8).wellFormed = false := by decide
theorem test_wellFormed_reserved10 : (Instr.reserved10 0x20#8).wellFormed = false := by decide
theorem test_wellFormed_reserved20 : (Instr.reserved20 0x1F#8).wellFormed = false := by decide
theorem test_wellFormed_reserved40 : (Instr.reserved40 0x80#8).wellFormed = false := by decide
theorem test_wellFormed_reserved80 : (Instr.reserved80 0x7F#8).wellFormed = false := by decide

/-! ## Decoding: words written out bit by bit from 30_encoding.md rule R71 -/

theorem test_decode_nop : decodeTableWord 8 0b00000000 = some .nop := by decide
theorem test_decode_crcInit : decodeTableWord 8 0b00000001 = some .crcInit := by decide
theorem test_decode_crcByte : decodeTableWord 8 0b00000010 = some .crcByte := by decide
theorem test_decode_encode : decodeTableWord 8 0b00000011 = some .encode := by decide
theorem test_decode_decode : decodeTableWord 8 0b00000100 = some .decode := by decide
theorem test_decode_reserved05 : decodeTableWord 8 0b00000101 = some .reserved05 := by decide
theorem test_decode_reserved06 : decodeTableWord 8 0b00000110 = some (.reserved06 0x06#8) := by decide
theorem test_decode_reserved08 : decodeTableWord 8 0b00001000 = some (.reserved08 0x08#8) := by decide
theorem test_decode_reserved10 : decodeTableWord 8 0b00011111 = some (.reserved10 0x1F#8) := by decide
theorem test_decode_reserved20 : decodeTableWord 8 0b00100000 = some (.reserved20 0x20#8) := by decide
theorem test_decode_reserved40 : decodeTableWord 8 0b01111111 = some (.reserved40 0x7F#8) := by decide
theorem test_decode_reserved80 : decodeTableWord 8 0b10000000 = some (.reserved80 0x80#8) := by decide
theorem test_decode_noByte : decodeBytes [] = .error .noCommandByte := rfl
theorem test_decode_oneByte : decodeBytes [0x03#8, 0x04#8] = .ok (.encode, [0x04#8]) := by decide

/-! ## The CRC function -/

/-- 95_test_vectors.md L2.1 to L2.4. -/
theorem test_crcBit : [0x0001#16, 0x0002#16, 0xFFFF#16, 0x8000#16].map crcBit = [0xA001#16, 0x0001#16, 0xDFFE#16, 0x4000#16] := by
  decide

/-- 40_crc.md rule R113: the accumulator after each byte of the source's test vector. -/
theorem test_crc_trace : coilBody.scanl crcByte 0xFFFF#16 =
    [0xFFFF#16, 0x807E#16, 0x23C0#16, 0x56E3#16, 0x4516#16, 0x8E84#16, 0x638E#16] := by decide +kernel

/-- 95_test_vectors.md L2.5: the CRC-16/MODBUS check value. -/
theorem test_crc_check : crc16 [0x31#8, 0x32#8, 0x33#8, 0x34#8, 0x35#8, 0x36#8, 0x37#8, 0x38#8, 0x39#8] = 0x4B37#16 := by
  decide +kernel

/-! ## The commands -/

/-- 95_test_vectors.md L2.57. -/
theorem test_nop : exec .nop (loaded 0x01#8 0x05#8 0x04#8 []) = .next (loaded 0x01#8 0x05#8 0x04#8 []) := rfl

/-- 40_crc.md rule R110, example. -/
theorem test_crcInit : nextField State.crc (exec .crcInit { State.reset with crc := 0x638E#16 }) = some 0xFFFF#16 := by decide

/-- 95_test_vectors.md L2.18. -/
theorem test_crcByte : nextField (fun t => (t.crc, t.data)) (exec .crcByte { State.reset with data := 0x01#8 }) =
    some (0x807E#16, 0x01#8) := by decide

/-- 95_test_vectors.md L2.20: the corrected frame of the source's end-to-end scenario. -/
theorem test_encode_coil :
    nextField (fun t => (t.status, t.crc, t.frameToSend)) (exec .encode (loaded 0x01#8 0x05#8 0x04#8 [0x09#8, 0x10#8, 0xFF#8, 0x00#8])) =
      some (0x1#4, 0x638E#16, some (coilBody ++ [0x8E#8, 0x63#8])) := by decide +kernel

/-- 95_test_vectors.md L2.27: the shortest frame. -/
theorem test_encode_empty :
    nextField (fun t => (t.status, t.txlen, t.crc, t.frameToSend)) (exec .encode (loaded 0x01#8 0x03#8 0x00#8 [])) =
      some (0x1#4, 0x0004#16, 0x2140#16, some [0x01#8, 0x03#8, 0x40#8, 0x21#8]) := by decide +kernel

/-- 95_test_vectors.md L2.36. -/
theorem test_decode_read :
    nextField (fun t => (t.status, t.reason, t.nreg, t.crc, t.registersView)) (exec .decode (received 0x01#8 0x03#8 (readBody ++ [0x5A#8, 0x60#8]))) =
      some (0x1#4, 0x00#8, 0x02#8, 0x605A#16, some [0x000A#16, 0x0102#16]) := by decide +kernel

/-- 95_test_vectors.md L2.45: an exception response ends at step 4. -/
theorem test_decode_exception :
    nextField (fun t => (t.status, t.reason, t.nreg, t.crc)) (exec .decode (received 0x01#8 0x03#8 [0x01#8, 0x83#8, 0x02#8, 0xC0#8, 0xF1#8])) =
      some (0x3#4, 0x02#8, 0x00#8, 0xF1C0#16) := by decide +kernel

/-- 95_test_vectors.md L2.58 and L2.59, each row of the table, as the first command after reset. -/
theorem test_reserved : [0x05, 0x07, 0x0F, 0x10, 0x20, 0x40, 0xFF].map
      (fun w => nextField (fun t => (t.status, t.reason)) (step (State.reset.withFetchWord 8 w))) =
    List.replicate 7 (some (0x7#4, 0x15#8)) := by decide +kernel

/-- 95_test_vectors.md P5, its first command: ENCODE right after reset. -/
theorem test_step_encode_after_reset :
    nextField (fun t => (t.status, t.reason, t.pending)) (step (State.reset.withFetchWord 8 0x03)) =
      some (0x7#4, 0x11#8, []) := by decide +kernel

/-- The state after the DECODE of 95_test_vectors.md L2.36. -/
def afterRead : State :=
  { received 0x01#8 0x03#8 (readBody ++ [0x5A#8, 0x60#8]) with
    status := 0x1#4, crc := 0x605A#16, nreg := 0x02#8, decoded := true }

/-- 10_state.md rule R37 and 60_exceptions.md rule R172: the views of 95_test_vectors.md L2.36 end with a write to RXBUF or
RXLEN or with a failed DECODE, and a later ENCODE with SUCCESS brings none back. -/
theorem test_views_end :
    nextField State.registersView (hostWrite 0x003 0x02#8 afterRead) = some (some [0x000A#16, 0x0102#16]) ∧
    nextField State.registersView (hostWrite 0x200 0x01#8 afterRead) = some none ∧
    nextField State.payloadView (hostWrite 0x00C 0x09#8 afterRead) = some none ∧
    nextField State.payloadView (exec .decode { afterRead with addr := 0x02#8 }) = some none ∧
    nextField (fun t => (t.status, t.payloadView)) (exec .encode { afterRead with decoded := false }) =
      some (0x1#4, none) := by decide +kernel

/-! ## The host's accesses -/

/-- 95_test_vectors.md L2.62, L2.65 and L2.68. -/
theorem test_host_reads_at_reset :
    nextField State.readData (hostRead 0x000 State.reset) = some (some 0x00#8) ∧
    nextField State.readData (hostRead 0x009 State.reset) = some (some 0xFF#8) ∧
    nextField State.readData (hostRead 0x3FF State.reset) = some (some 0x00#8) ∧
    faultOf (hostRead 0x100 State.reset) = some (.unwrittenByte .tx 0) := by decide

/-- 95_test_vectors.md L2.67: RXLEN_LO and RXLEN_HI. -/
theorem test_wr16_rxlen :
    Nat.iterate advance 2 { State.reset with pending := wr16Rxlen 0x0201#16 } = { State.reset with rxlen := 0x0201#16 } := by decide

/-- 30_encoding.md rules R74 and R76: the request payloads of 95_test_vectors.md L2.26 and L2.20. -/
theorem test_request_payloads :
    readRegistersPayload 0x006B#16 0x0003#16 = [0x00#8, 0x6B#8, 0x00#8, 0x03#8] ∧
    writeCoilPayload 0x0910#16 true = [0x09#8, 0x10#8, 0xFF#8, 0x00#8] ∧
    wrbuf 0x102 (writeCoilPayload 0x0910#16 true) =
      [.write 0x102 0x09#8, .write 0x103 0x10#8, .write 0x104 0xFF#8, .write 0x105 0x00#8] := by decide

/-! ## States that meet the statements' hypotheses -/

theorem fill_holds (bs : List Byte) : ∀ i, (fill i bs).Holds i bs := by
  induction bs with
  | nil => intro i k hk; simp at hk
  | cons b bs ih =>
    intro i
    refine Memory.Holds.cons (by simp [fill, Memory.read_cons]) fun k hk => ?_
    rw [fill, Memory.read_cons, if_neg (by omega)]
    exact ih (i + 1) k hk

theorem loaded_ready {addr func : Byte} {p : List Byte} (ha : 1 ≤ addr.toNat ∧ addr.toNat ≤ 127)
    (hf : func = 0x03#8 ∨ func = 0x05#8) (hp : p.length ≤ 252) :
    EncodeReady (loaded addr func (BitVec.ofNat 8 p.length) p) p := by
  have hl : (BitVec.ofNat 8 p.length).toNat = p.length := by simp; omega
  exact ⟨⟨ha.1, ha.2, hf, by rw [loaded, hl]; exact hp⟩, by rw [loaded, hl], fill_holds p 2⟩

theorem received_ready {addr func : Byte} {r : List Byte} (hf : func = 0x03#8 ∨ func = 0x05#8) (h5 : 5 ≤ r.length)
    (h256 : r.length ≤ 256) : DecodeReady (received addr func r) r := by
  have hl : (BitVec.ofNat 16 r.length).toNat = r.length := by simp; omega
  exact ⟨⟨hf, by rw [received, hl]; exact h5, by rw [received, hl]; exact h256⟩, by rw [received, hl], fill_holds r 0⟩

/-- A state with one event to come. -/
def facing (e : BusEvent) : State := { State.reset with pending := [e] }

theorem witness_DecodeOfEncodeIsTheCommand : Instr.nop.wellFormed = true ∧ (Instr.reserved80 0xFF#8).wellFormed = true := by
  decide

theorem witness_StepRunsTheWrittenCommand :
    (facing (.write 0x000 0xFF#8)).fault = none ∧ (facing (.write 0x000 0xFF#8)).pending = .write 0x000 0xFF#8 :: [] ∧
    (facing (cmdEvent .decode)).pending = cmdEvent .decode :: [] ∧ Instr.decode.wellFormed = true ∧
    State.reset.fault = none := by decide

theorem witness_StepPerformsTheNextEvent :
    State.reset.fault = none ∧ State.reset.pending = [] ∧ (facing (.read 0x3FF)).fault = none ∧
    (facing (.read 0x3FF)).pending = .read 0x3FF :: [] ∧
    (facing (.write 0x2FF 0xFF#8)).pending = .write 0x2FF 0xFF#8 :: [] ∧ (facing .reset).pending = .reset :: [] := by decide

theorem witness_WideAccessIsRefused :
    (facing (.wide 0x000 .bits64)).fault = none ∧ (facing (.wide 0x000 .bits64)).pending = .wide 0x000 .bits64 :: [] := by
  decide

theorem witness_AccessOutsideTheSpaceFaults :
    0x400 ≤ 0x400 ∧ faultOf (hostRead 0x400 State.reset) = some (.outsideRegisterSpace 0x400) ∧
      faultOf (hostRead 0x3FF State.reset) = none := by decide

/-- Each clause at the ends of its range: the reserved offsets, and both buffers' first and last bytes, written and not. -/
theorem witness_HostReadFollowsTheMap :
    (0x00F ≤ 0x00F ∧ 0x00F < 0x100) ∧ (0x00F ≤ 0x0FF ∧ 0x0FF < 0x100) ∧ (0x300 ≤ 0x300 ∧ 0x300 < 0x400) ∧
    (0x300 ≤ 0x3FF ∧ 0x3FF < 0x400) ∧
    (let s := { State.reset with txbuf := [(255, 0xAB#8)], rxbuf := [(0, 0xCD#8)] }
     s.txbuf.read 255 = some 0xAB#8 ∧ s.txbuf.read 0 = none ∧ s.rxbuf.read 0 = some 0xCD#8 ∧ s.rxbuf.read 255 = none ∧
     nextField State.readData (hostRead 0x1FF s) = some (some 0xAB#8) ∧
     nextField State.readData (hostRead 0x200 s) = some (some 0xCD#8) ∧
     faultOf (hostRead 0x2FF s) = some (.unwrittenByte .rx 255)) := by decide

theorem witness_HostWriteFollowsTheMap :
    (0x00E ∈ [0x001, 0x002, 0x007, 0x008, 0x009, 0x00A, 0x00B, 0x00E]) ∧
    nextField State.txbuf (hostWrite 0x1FF 0xAB#8 State.reset) = some [(255, 0xAB#8)] ∧
    nextField State.rxbuf (hostWrite 0x200 0xCD#8 State.reset) = some [(0, 0xCD#8)] ∧
    nextField id (hostWrite 0x3FF 0xAB#8 State.reset) = some State.reset ∧
    nextField id (hostWrite 0x00F 0xAB#8 State.reset) = some State.reset := by decide

theorem witness_ReadReturnsTheLastWrite :
    (0x00D ∈ [0x003, 0x004, 0x005, 0x006, 0x00C, 0x00D]) ∧ (0x100 ≤ 0x100 ∧ 0x100 < 0x300) ∧
    (0x100 ≤ 0x2FF ∧ 0x2FF < 0x300) := by decide

/-- Both answers: offset 0x2FE of reset faults before and after a write of 0x2FF, and offset 0x00C answers 0. -/
theorem witness_WriteLeavesOtherOffsetsAlone :
    (0x2FF ≠ 0x000 ∧ 0x2FF < 0x400 ∧ 0x2FE ≠ 0x2FF) ∧ faultOf (hostRead 0x2FE State.reset) = some (.unwrittenByte .rx 0xFE) ∧
    (0x00D ≠ 0x000 ∧ 0x00D < 0x400 ∧ 0x00C ≠ 0x00D) ∧
    nextField State.readData (hostRead 0x00C State.reset) = some (some 0x00#8) := by decide

theorem witness_ReadsAndPlainWritesAreIdempotent :
    (nextField State.readData (hostRead 0x008 State.reset)).isSome = true ∧ (0x1FF ≠ 0x000 ∧ 0x1FF < 0x400) := by decide

theorem witness_ModelFaultIsSticky :
    faultOf (step (facing (.read 0x100))) = some (.unwrittenByte .tx 0) ∧
    ({ State.reset with fault := some (.unwrittenByte .tx 0) } : State).fault = some (.unwrittenByte .tx 0) := by decide

theorem witness_OnlyAnUnwrittenByteStopsACommand :
    faultOf (exec .encode (loaded 0x01#8 0x05#8 0x01#8 [])) = some (.unwrittenByte .tx 2) ∧
    faultOf (exec .decode { received 0x01#8 0x05#8 [] with rxlen := 0x0005#16 }) = some (.unwrittenByte .rx 0) := by decide

theorem witness_RunsWithoutBufferReadsNeverStop :
    (facing (.write 0x3FF 0x00#8)).fault = none ∧ ∀ e ∈ (facing (.write 0x3FF 0x00#8)).pending, ReadsNoBuffer e := by
  refine ⟨rfl, fun e he => ?_⟩
  have : e = .write 0x3FF 0x00#8 := by simpa [facing] using he
  subst this
  exact ⟨by decide, fun h => absurd h (by decide)⟩

/-- A block with other values in its registers. -/
theorem witness_ResetGivesTheTabledValues :
    ∃ s t : State, t = resetBlock s ∧ s.addr ≠ t.addr ∧ s.txbuf ≠ t.txbuf :=
  ⟨loaded 0x01#8 0x03#8 0x00#8 [0x09#8], _, rfl, by decide, by decide⟩

theorem witness_ResetInputIsAlwaysTaken : (facing .reset).fault = none ∧ (facing .reset).pending = .reset :: [] := by decide

theorem witness_CrcBitBitByBit : 0 < 16 ∧ 15 < 16 := by decide

theorem witness_CrcDetectsOneChangedByte : (0x00#8 : Byte) ≠ 0x80#8 := by decide

theorem witness_EveryReservedCodeFinishesInvalid : 5 ≤ (0x05#8).toNat ∧ 5 ≤ (0xFF#8).toNat := by decide

/-- The shortest and the longest payload, at both ends of the address range. -/
theorem witness_EncodeBuildsTheFrame :
    (∃ s, EncodeReady s [] ∧ s.plen = 0x00#8 ∧ s.addr = 0x01#8) ∧
    (∃ s p, EncodeReady s p ∧ s.plen = 0xFC#8 ∧ s.addr = 0x7F#8) :=
  ⟨⟨_, loaded_ready (addr := 0x01#8) (func := 0x03#8) (by decide) (.inl rfl) (by decide), rfl, rfl⟩,
   ⟨_, List.replicate 252 0x00#8,
    loaded_ready (addr := 0x7F#8) (func := 0x05#8) (by decide) (.inr rfl) (by rw [List.length_replicate]), by rw [loaded, List.length_replicate], rfl⟩⟩

/-- Each check at both sides of its bound; the clauses exclude each other by the bounds they state. -/
theorem witness_EncodeRejectsBadArguments :
    ((0x00#8).toNat < 1) ∧ (127 < (0x80#8).toNat) ∧
    (1 ≤ (0x7F#8).toNat ∧ (0x7F#8).toNat ≤ 127 ∧ (0x04#8 : Byte) ≠ 0x03#8 ∧ (0x04#8 : Byte) ≠ 0x05#8) ∧
    (252 < (0xFD#8).toNat) ∧
    nextField State.reason (exec .encode (loaded 0x80#8 0x04#8 0xFD#8 [])) = some 0x11#8 ∧
    nextField State.reason (exec .encode (loaded 0x7F#8 0x04#8 0xFD#8 [])) = some 0x12#8 ∧
    nextField State.reason (exec .encode (loaded 0x7F#8 0x05#8 0xFD#8 [])) = some 0x13#8 := by decide

theorem witness_EncodeFaultsAtTheFirstUnwrittenByte :
    EncodeArguments (loaded 0x01#8 0x05#8 0x02#8 [0x09#8]) ∧ (loaded 0x01#8 0x05#8 0x02#8 [0x09#8]).txbuf.read (2 + 1) = none ∧
    ∀ k, k < 1 → ((loaded 0x01#8 0x05#8 0x02#8 [0x09#8]).txbuf.read (2 + k)).isSome = true :=
  ⟨⟨by decide, by decide, .inr rfl, by decide⟩, by decide, by decide⟩

theorem witness_EncodeTwiceIsEncodeOnce :
    ∃ s t : State, s.txbuf.wf ∧ exec .encode s = .next t ∧ t.status = 0x1#4 :=
  ⟨loaded 0x01#8 0x03#8 0x00#8 [], _, by decide,
    execEncode_of_ready (loaded_ready (addr := 0x01#8) (func := 0x03#8) (p := []) (by decide) (.inl rfl) (by decide)), rfl⟩

/-- Two states that differ in TXBUF[0] and TXBUF[255] and agree on the operands. -/
theorem witness_EncodeReadsOnlyItsOperands :
    ∃ s u t : State, u.addr = s.addr ∧ u.func = s.func ∧ u.plen = s.plen ∧ u.txbuf ≠ s.txbuf ∧
      (∀ k, k < s.plen.toNat → u.txbuf.read (2 + k) = s.txbuf.read (2 + k)) ∧ exec .encode s = .next t ∧ t.status = 0x1#4 :=
  ⟨loaded 0x01#8 0x03#8 0x01#8 [0x09#8],
    { loaded 0x01#8 0x03#8 0x01#8 [0x09#8] with txbuf := [(0, 0xAA#8), (2, 0x09#8), (255, 0xBB#8)] }, _, rfl, rfl, rfl,
    by decide, by decide, execEncode_of_ready (loaded_ready (addr := 0x01#8) (func := 0x03#8) (p := [0x09#8]) (by decide) (.inl rfl) (by decide)), rfl⟩

theorem witness_EncodedFrameHasZeroResidue : ∃ s t : State, exec .encode s = .next t ∧ t.status = 0x1#4 :=
  ⟨loaded 0x01#8 0x03#8 0x00#8 [], _, execEncode_of_ready (loaded_ready (addr := 0x01#8) (func := 0x03#8) (p := []) (by decide) (.inl rfl) (by decide)), rfl⟩

/-- RXLEN at 257 and at 4, and a function code that is not supported; no clause reads RXBUF. -/
theorem witness_DecodeRejectsBeforeReading :
    ((0x04#8 : Byte) ≠ 0x03#8 ∧ (0x04#8 : Byte) ≠ 0x05#8) ∧ 256 < (0x0101#16).toNat ∧ (0x0004#16).toNat < 5 ∧
    nextField State.reason (exec .decode { received 0x01#8 0x04#8 [] with rxlen := 0x0101#16 }) = some 0x12#8 ∧
    nextField State.reason (exec .decode { received 0x01#8 0x05#8 [] with rxlen := 0x0101#16 }) = some 0x14#8 ∧
    nextField State.reason (exec .decode { received 0x01#8 0x05#8 [] with rxlen := 0x0004#16 }) = some 0x01#8 := by decide

/-- The source's literal frame 8E 4E (95_test_vectors.md L2.41) and the corrected one, and the shortest and longest frames that
are examined. -/
theorem witness_DecodeReportsChecksumMismatch :
    (∃ s, DecodeReady s (coilBody ++ [0x8E#8, 0x4E#8]) ∧ ¬ CrcMatches coilBody 0x8E#8 0x4E#8) ∧
    (∃ s, DecodeReady s (coilBody ++ [0x8E#8, 0x63#8]) ∧ CrcMatches coilBody 0x8E#8 0x63#8) ∧
    (∃ s, DecodeReady s ([0x01#8, 0x03#8, 0x00#8] ++ [0x00#8, 0x00#8])) ∧
    (∃ s, DecodeReady s (List.replicate 254 0x00#8 ++ [0x00#8, 0x00#8])) :=
  ⟨⟨_, received_ready (addr := 0x01#8) (.inr rfl) (by decide) (by decide), by unfold CrcMatches; decide +kernel⟩,
   ⟨_, received_ready (addr := 0x01#8) (.inr rfl) (by decide) (by decide), by unfold CrcMatches; decide +kernel⟩,
   ⟨_, received_ready (addr := 0x01#8) (.inl rfl) (by decide) (by decide)⟩,
   ⟨_, received_ready (addr := 0x01#8) (.inl rfl)
      (by rw [List.length_append, List.length_replicate]; decide) (by rw [List.length_append, List.length_replicate]; decide)⟩⟩

/-- 95_test_vectors.md L2.42 and L2.43. -/
theorem witness_DecodeReportsAddressMismatch :
    (∃ s, DecodeReady s (0x02#8 :: [0x05#8, 0x09#8, 0x10#8, 0xFF#8, 0x00#8] ++ [0x8E#8, 0x50#8]) ∧ 0x02#8 ≠ s.addr ∧
      CrcMatches (0x02#8 :: [0x05#8, 0x09#8, 0x10#8, 0xFF#8, 0x00#8]) 0x8E#8 0x50#8) ∧
    (∃ s, DecodeReady s (0x02#8 :: [0x05#8, 0x09#8, 0x10#8, 0xFF#8, 0x00#8] ++ [0x8E#8, 0x63#8]) ∧ 0x02#8 ≠ s.addr ∧
      ¬ CrcMatches (0x02#8 :: [0x05#8, 0x09#8, 0x10#8, 0xFF#8, 0x00#8]) 0x8E#8 0x63#8) :=
  ⟨⟨_, received_ready (addr := 0x01#8) (func := 0x05#8) (.inr rfl) (by decide) (by decide), by decide,
    by unfold CrcMatches; decide +kernel⟩,
   ⟨_, received_ready (addr := 0x01#8) (func := 0x05#8) (.inr rfl) (by decide) (by decide), by decide,
    by unfold CrcMatches; decide +kernel⟩⟩

/-- 95_test_vectors.md L2.45. -/
theorem witness_DecodeReportsUnexpectedFunction :
    ∃ s, DecodeReady s (s.addr :: 0x83#8 :: [0x02#8] ++ [0xC0#8, 0xF1#8]) ∧
      CrcMatches (s.addr :: 0x83#8 :: [0x02#8]) 0xC0#8 0xF1#8 ∧ 0x83#8 ≠ s.func :=
  ⟨received 0x01#8 0x03#8 [0x01#8, 0x83#8, 0x02#8, 0xC0#8, 0xF1#8],
    received_ready (addr := 0x01#8) (.inl rfl) (by decide) (by decide), by unfold CrcMatches; decide +kernel, by decide⟩

/-- The two failures (95_test_vectors.md L2.46 and L2.48) and the successes with `n` = 4 and `n` = 0 (L2.36, L2.39). -/
theorem witness_DecodeReadHoldingResponse :
    (∃ s, DecodeReady s (s.addr :: s.func :: 0x04#8 :: [0x00#8, 0x0A#8, 0x01#8] ++ [0x83#8, 0x9A#8]) ∧ s.func = 0x03#8 ∧
      CrcMatches (s.addr :: s.func :: 0x04#8 :: [0x00#8, 0x0A#8, 0x01#8]) 0x83#8 0x9A#8 ∧ s.rxlen.toNat ≠ (0x04#8).toNat + 5) ∧
    (∃ s, DecodeReady s (s.addr :: s.func :: 0x01#8 :: [0x2A#8] ++ [0x71#8, 0x97#8]) ∧ s.func = 0x03#8 ∧
      CrcMatches (s.addr :: s.func :: 0x01#8 :: [0x2A#8]) 0x71#8 0x97#8 ∧ (0x01#8).toNat % 2 = 1) ∧
    (∃ s, DecodeReady s (s.addr :: s.func :: 0x00#8 :: [] ++ [0x20#8, 0xF0#8]) ∧ s.func = 0x03#8 ∧
      CrcMatches (s.addr :: s.func :: 0x00#8 :: []) 0x20#8 0xF0#8 ∧ s.rxlen.toNat = (0x00#8).toNat + 5) :=
  ⟨⟨received 0x01#8 0x03#8 [0x01#8, 0x03#8, 0x04#8, 0x00#8, 0x0A#8, 0x01#8, 0x83#8, 0x9A#8],
    received_ready (.inl rfl) (by decide) (by decide), rfl, by unfold CrcMatches; decide +kernel, by decide⟩,
   ⟨received 0x01#8 0x03#8 [0x01#8, 0x03#8, 0x01#8, 0x2A#8, 0x71#8, 0x97#8],
    received_ready (.inl rfl) (by decide) (by decide), rfl, by unfold CrcMatches; decide +kernel, by decide⟩,
   ⟨received 0x01#8 0x03#8 [0x01#8, 0x03#8, 0x00#8, 0x20#8, 0xF0#8],
    received_ready (.inl rfl) (by decide) (by decide), rfl, by unfold CrcMatches; decide +kernel, by decide⟩⟩

/-- A frame of 5 bytes (95_test_vectors.md L2.49) and one of 8 (L2.40). -/
theorem witness_DecodeWriteCoilResponse :
    (∃ s, DecodeReady s (s.addr :: s.func :: [0x00#8] ++ [0x23#8, 0x50#8]) ∧ s.func = 0x05#8 ∧
      CrcMatches (s.addr :: s.func :: [0x00#8]) 0x23#8 0x50#8 ∧ s.rxlen.toNat ≠ 8) ∧
    (∃ s, DecodeReady s (s.addr :: s.func :: [0x09#8, 0x10#8, 0xFF#8, 0x00#8] ++ [0x8E#8, 0x63#8]) ∧ s.func = 0x05#8 ∧
      CrcMatches (s.addr :: s.func :: [0x09#8, 0x10#8, 0xFF#8, 0x00#8]) 0x8E#8 0x63#8 ∧ s.rxlen.toNat = 8) :=
  ⟨⟨received 0x01#8 0x05#8 [0x01#8, 0x05#8, 0x00#8, 0x23#8, 0x50#8],
    received_ready (.inr rfl) (by decide) (by decide), rfl, by unfold CrcMatches; decide +kernel, by decide⟩,
   ⟨received 0x01#8 0x05#8 (coilBody ++ [0x8E#8, 0x63#8]),
    received_ready (.inr rfl) (by decide) (by decide), rfl, by unfold CrcMatches; decide +kernel, by decide⟩⟩

theorem witness_DecodeFaultsAtTheFirstUnwrittenByte :
    ∃ s, DecodeArguments s ∧ 4 < s.rxlen.toNat ∧ s.rxbuf.read 4 = none ∧ ∀ k, k < 4 → (s.rxbuf.read k).isSome = true :=
  ⟨{ received 0x01#8 0x05#8 [0x01#8, 0x05#8, 0x09#8, 0x10#8] with rxlen := 0x0100#16 },
    ⟨.inr rfl, by decide, by decide⟩, by decide, by decide, by decide⟩

/-- One frame that is accepted and one that is not. -/
theorem witness_DecodeAcceptsExactlyTheValidFrames :
    (∃ s, DecodeReady s (frameOf s.addr s.func [0x09#8, 0x10#8, 0xFF#8, 0x00#8]) ∧
      WellFormedResponse s.func [0x09#8, 0x10#8, 0xFF#8, 0x00#8]) ∧
    (∃ s, DecodeReady s (coilBody ++ [0x8E#8, 0x4E#8])) :=
  ⟨⟨received 0x01#8 0x05#8 (frameOf 0x01#8 0x05#8 [0x09#8, 0x10#8, 0xFF#8, 0x00#8]),
    received_ready (.inr rfl) (by simp [frameOf]) (by simp [frameOf]), .inr ⟨rfl, rfl⟩⟩,
   ⟨_, received_ready (addr := 0x01#8) (.inr rfl) (by decide) (by decide)⟩⟩

/-- A success for 0x03 (95_test_vectors.md L2.36) and an outcome that is none. -/
theorem witness_NregCountsOnlyASuccessfulRead :
    nextField (fun t => (t.status, t.nreg)) (exec .decode (received 0x01#8 0x03#8 (readBody ++ [0x5A#8, 0x60#8]))) =
      some (0x1#4, 0x02#8) ∧
    nextField (fun t => (t.status, t.nreg)) (exec .decode (received 0x01#8 0x03#8 [])) = some (0x3#4, 0x00#8) := by
  decide +kernel

/-- A payload of each function code. -/
theorem witness_DecodedViewsShowThePayload :
    (∃ s, DecodeReady s (frameOf s.addr s.func [0x02#8, 0x12#8, 0x34#8]) ∧ s.func = 0x03#8 ∧
      WellFormedResponse s.func [0x02#8, 0x12#8, 0x34#8]) ∧
    (∃ s, DecodeReady s (frameOf s.addr s.func [0x09#8, 0x10#8, 0xFF#8, 0x00#8]) ∧ s.func = 0x05#8 ∧
      WellFormedResponse s.func [0x09#8, 0x10#8, 0xFF#8, 0x00#8]) :=
  ⟨⟨received 0x7F#8 0x03#8 (frameOf 0x7F#8 0x03#8 [0x02#8, 0x12#8, 0x34#8]),
    received_ready (.inl rfl) (by simp [frameOf]) (by simp [frameOf]), rfl, .inl ⟨rfl, _, _, rfl, rfl, rfl⟩⟩,
   ⟨received 0x01#8 0x05#8 (frameOf 0x01#8 0x05#8 [0x09#8, 0x10#8, 0xFF#8, 0x00#8]),
    received_ready (.inr rfl) (by simp [frameOf]) (by simp [frameOf]), rfl, .inr ⟨rfl, rfl⟩⟩⟩

/-- Two states that differ in CRC and RXBUF[5] and agree on the frame of five bytes; and one where DECODE stops before
step 2. -/
theorem witness_DecodeReadsOnlyItsFrame :
    (∃ s u t : State, u.addr = s.addr ∧ u.func = s.func ∧ u.rxlen = s.rxlen ∧ u.crc ≠ s.crc ∧ u.rxbuf ≠ s.rxbuf ∧
      (∀ k, k < s.rxlen.toNat → u.rxbuf.read k = s.rxbuf.read k) ∧ exec .decode s = .next t ∧ DecodeArguments s) ∧
    (∃ t, exec .decode State.reset = .next t ∧ ¬ DecodeArguments State.reset) :=
  ⟨⟨received 0x01#8 0x03#8 [0x01#8, 0x03#8, 0x00#8, 0x20#8, 0xF0#8],
    { received 0x01#8 0x03#8 [0x01#8, 0x03#8, 0x00#8, 0x20#8, 0xF0#8] with
      crc := 0x0000#16, rxbuf := fill 0 [0x01#8, 0x03#8, 0x00#8, 0x20#8, 0xF0#8, 0x77#8] },
    _, rfl, rfl, rfl, by decide, by decide, by decide, execDecode_of_ready (r := [0x01#8, 0x03#8, 0x00#8, 0x20#8, 0xF0#8])
      (received_ready (.inl rfl) (by decide) (by decide)), .inl rfl, by decide, by decide⟩,
   ⟨_, rfl, fun h => absurd h.2.1 (by decide)⟩⟩

/-- The frame with a wrong CRC of 95_test_vectors.md L2.41, and RXLEN 0. -/
theorem witness_FailedDecodeIsNeverPartialSuccess :
    nextField State.status (exec .decode (received 0x01#8 0x05#8 (coilBody ++ [0x8E#8, 0x4E#8]))) = some 0x4#4 ∧
    nextField State.status (exec .decode (received 0x01#8 0x05#8 [])) = some 0x3#4 := by decide +kernel

/-- Steps from a state with views: one that keeps them, and one for each end of the offsets that end them. -/
theorem witness_ViewsLastUntilTheirFrameChanges :
    (afterRead.payloadView.isSome ∧ afterRead.registersView.isSome) ∧ ¬ EndsViews (.write 0x300 0x01#8) ∧
    ¬ EndsViews (.write 0x1FF 0x01#8) ∧ EndsViews (.write 0x200 0x01#8) ∧ EndsViews (.write 0x2FF 0x01#8) ∧
    EndsViews (.write 0x00C 0x09#8) ∧ EndsViews (.write 0x00D 0x00#8) ∧ EndsViews .reset ∧
    ([.write 0x300 0x01#8, .write 0x200 0x01#8, .write 0x2FF 0x01#8, .write 0x00C 0x09#8, .write 0x00D 0x00#8, .reset].map
      fun e => (nextField State.payloadView (step { afterRead with pending := [e] })).isSome) = List.replicate 6 true := by
  refine ⟨by decide, by simp [EndsViews], by simp [EndsViews], by simp [EndsViews], by simp [EndsViews], by simp [EndsViews],
    by simp [EndsViews], trivial, by decide +kernel⟩

/-- The frame of 95_test_vectors.md L1.6 and its flips `8F 63` and `8E E3`. -/
theorem witness_ChangedCrcByteIsCaught :
    (∃ s, DecodeReady s (coilBody ++ [0x8E#8, 0x63#8])) ∧ CrcMatches coilBody 0x8E#8 0x63#8 ∧
    (0x8F#8 : Byte) ≠ 0x8E#8 ∧ (0xE3#8 : Byte) ≠ 0x63#8 :=
  ⟨⟨_, received_ready (addr := 0x01#8) (.inr rfl) (by decide) (by decide)⟩, by unfold CrcMatches; decide +kernel,
    by decide, by decide⟩

/-- The first and the last byte of the frame of 95_test_vectors.md L1.6. -/
theorem witness_AnyChangedByteIsCaught :
    ∃ s, DecodeReady s (coilBody ++ [0x8E#8, 0x63#8]) ∧ CrcMatches coilBody 0x8E#8 0x63#8 ∧
      (0 < s.rxlen.toNat ∧ s.rxbuf.read 0 ≠ some 0x00#8) ∧ (7 < s.rxlen.toNat ∧ s.rxbuf.read 7 ≠ some 0x62#8) :=
  ⟨_, received_ready (addr := 0x01#8) (func := 0x05#8) (.inr rfl) (by decide) (by decide),
    by unfold CrcMatches; decide +kernel, by decide, by decide⟩

theorem witness_CommandsLeaveTheHostsSideAlone : ∃ t, exec .decode State.reset = .next t := ⟨_, rfl⟩

/-- A step that changes CRC, one that changes STATUS and TXLEN, and one that changes NREG. -/
theorem witness_ResultsChangeOnlyByTheirCommands :
    nextField State.crc (step (facing (.write 0x000 0x02#8))) = some 0x40BF#16 ∧
    nextField (fun t => (t.status, t.txlen)) (step { loaded 0x01#8 0x03#8 0x00#8 [] with pending := [cmdEvent .encode] }) =
      some (0x1#4, 0x0004#16) ∧
    nextField State.nreg (step { received 0x01#8 0x03#8 (readBody ++ [0x5A#8, 0x60#8]) with pending := [cmdEvent .decode] }) =
      some 0x02#8 ∧
    (∀ rest, (facing (.write 0x000 0x02#8)).pending ≠ .reset :: rest) := by
  refine ⟨by decide +kernel, by decide +kernel, by decide +kernel, fun rest h => ?_⟩
  simp [facing] at h

/-- A legal state at the ends of its ranges, about to take a step. -/
theorem witness_EveryStepKeepsTheStateLegal :
    ∃ s t : State, Inv s ∧ step s = .next t ∧ s.nreg = 0x7D#8 ∧ s.txlen = 0x0100#16 ∧ s.txbuf ≠ [] :=
  ⟨{ loaded 0x01#8 0x05#8 0x00#8 [0x09#8] with
      nreg := 0x7D#8, txlen := 0x0100#16, status := 0x1#4, pending := [cmdEvent .nop] }, _,
    ⟨by decide, by decide, by decide, by decide, .inr (by decide), by decide, by decide, fun h => absurd h (by decide)⟩,
    rfl, rfl, rfl, by decide⟩

/-- A legal state whose views are defined, about to take a step. -/
theorem witness_EveryStepKeepsTheStateLegal_views :
    ∃ s t : State, Inv s ∧ s.decoded = true ∧ step s = .next t :=
  ⟨{ received 0x01#8 0x05#8 (frameOf 0x01#8 0x05#8 [0x09#8, 0x10#8, 0xFF#8, 0x00#8]) with
      decoded := true, pending := [.read 0x001] }, _,
    ⟨by decide, by decide, by decide, by simp [Memory.inBuffer, received, frameOf, fill], .inl rfl, by decide, by decide,
      fun _ => ⟨0x01#8, 0x05#8, [0x09#8, 0x10#8, 0xFF#8, 0x00#8], fill_holds _ 0, rfl, by decide, .inr ⟨rfl, rfl⟩, rfl⟩⟩,
    rfl, rfl⟩

theorem witness_StreamingComputesTheCrc :
    ∃ s : State, s.fault = none ∧ s.pending = cmdEvent .crcInit :: (crcbytes coilBody ++ [cmdEvent .nop]) :=
  ⟨{ State.reset with pending := cmdEvent .crcInit :: (crcbytes coilBody ++ [cmdEvent .nop]) }, rfl, rfl⟩

/-- The received state that holds what ENCODE left in TXBUF, for a payload well-formed for the response, for the empty
one and for the longest, which is neither. -/
theorem witness_DecodeOfEncodeRoundTrip (p : List Byte)
    (hp : p = [0x09#8, 0x10#8, 0xFF#8, 0x00#8] ∨ p = [] ∨ p = List.replicate 252 0x00#8) :
    (WellFormedResponse 0x05#8 p ↔ p.length = 4) ∧
    ∃ s t u : State, s.func = 0x05#8 ∧ EncodeReady s p ∧ exec .encode s = .next t ∧ u.addr = s.addr ∧
      u.func = s.func ∧ u.rxlen = t.txlen ∧ (∀ k, k < t.txlen.toNat → u.rxbuf.read k = t.txbuf.read k) := by
  have hl : p.length ≤ 252 := by
    rcases hp with rfl | rfl | rfl
    · decide
    · decide
    · rw [List.length_replicate]
  have h := loaded_ready (addr := 0x01#8) (func := 0x05#8) (p := p) (by decide) (.inr rfl) hl
  refine ⟨by simp [WellFormedResponse], _, encodeBuild p (loaded 0x01#8 0x05#8 (BitVec.ofNat 8 p.length) p),
    { loaded 0x01#8 0x05#8 (BitVec.ofNat 8 p.length) p with
      rxlen := (encodeBuild p (loaded 0x01#8 0x05#8 (BitVec.ofNat 8 p.length) p)).txlen
      rxbuf := (encodeBuild p (loaded 0x01#8 0x05#8 (BitVec.ofNat 8 p.length) p)).txbuf },
    rfl, h, execEncode_of_ready h, rfl, rfl, rfl, fun _ _ => rfl⟩

end Sys2Proof.Tests
end

section
/-! PROOFS. Where ENCODE and DECODE stop at an unwritten byte (00_scope.md rule R14). -/

namespace Sys2Proof.Proofs

open Sys2Proof.Machine

/-- A run of bytes whose byte `j`, counted from its start `i`, is the first without a value. -/
theorem rdRange_eq_error_of_first_unwritten {s : State} {buf : BufferName} {i n j : Nat} (hj : j < n)
    (hnone : (s.buffer buf).read (i + j) = none)
    (hbefore : ∀ k, k < j → ((s.buffer buf).read (i + k)).isSome = true) :
    s.rdRange buf i n = .error (.unwrittenByte buf (i + j)) := by
  have hfirst : ∀ k, i ≤ k → k < i + j → ((s.buffer buf).read k).isSome = true := by
    intro k hik hkj
    obtain ⟨d, rfl⟩ := Nat.exists_eq_add_of_le hik
    exact hbefore d (by omega)
  exact State.rdRange_eq_error_iff.mpr ⟨i + j, rfl, by omega, by omega, hnone, hfirst⟩

/-- ENCODE past its checks stops where its read of the payload stops (41_frame_codec.md rule R133). -/
theorem execEncode_of_rdRange_error {s : State} {f : Fault} (hargs : EncodeArguments s)
    (hf : s.rdRange .tx 2 s.plen.toNat = .error f) : execEncode s = .fault f := by
  simp [execEncode, encodeError_eq_none_iff.mpr hargs, hf]

/-- DECODE past its checks stops where its read of the frame stops (41_frame_codec.md rule R152). -/
theorem execDecode_of_rdRange_error {s : State} {f : Fault} (hargs : DecodeArguments s)
    (hf : s.rdRange .rx 0 s.rxlen.toNat = .error f) : execDecode s = .fault f := by
  simp [execDecode, decodeError_eq_none_iff.mpr hargs, hf]

/-- Settles O33: the payload is read in rising order, before anything is written. -/
theorem encodeFaultsAtTheFirstUnwrittenByte : Obligations.EncodeFaultsAtTheFirstUnwrittenByte := by
  intro s j hargs hj hnone hbefore
  exact execEncode_of_rdRange_error hargs (rdRange_eq_error_of_first_unwritten hj hnone hbefore)

/-- Settles O43: the frame is read in rising order from RXBUF[0], before anything is written. -/
theorem decodeFaultsAtTheFirstUnwrittenByte : Obligations.DecodeFaultsAtTheFirstUnwrittenByte := by
  intro s j hargs hj hnone hbefore
  have hf : s.rdRange .rx 0 s.rxlen.toNat = .error (.unwrittenByte .rx (0 + j)) := by
    apply rdRange_eq_error_of_first_unwritten hj
    · rwa [Nat.zero_add]
    · intro k hk
      rw [Nat.zero_add]
      exact hbefore k hk
  rw [Nat.zero_add] at hf
  exact execDecode_of_rdRange_error hargs hf

end Sys2Proof.Proofs
end

section
/-! PROOFS. Which frames DECODE accepts, and what it leaves in the result registers (41_frame_codec.md rules R150 to
R152, 10_state.md rule R33). -/

namespace Sys2Proof.Proofs

open Sys2Proof.Machine

/-! ## The verdict on a frame -/

/-- The number of registers NREG reports for an accepted payload (10_state.md rule R33). -/
def payloadRegisters (func : Byte) (p : List Byte) : Nat :=
  if func = 0x03#8 then (p.headD 0x00#8).toNat / 2 else 0

theorem payloadRegisters_of_ne_read {func : Byte} {p : List Byte} (h : func ≠ 0x03#8) : payloadRegisters func p = 0 :=
  if_neg h

@[simp] theorem payloadRegisters_read (n : Byte) (rest : List Byte) :
    payloadRegisters 0x03#8 (n :: rest) = n.toNat / 2 := rfl

@[simp] theorem frameBody_frameOf (a f : Byte) (p : List Byte) : frameBody (frameOf a f p) = a :: f :: p :=
  frameBody_append ..

@[simp] theorem receivedCrc_frameOf (a f : Byte) (p : List Byte) : receivedCrc (frameOf a f p) = crc16 (a :: f :: p) := by
  rw [frameOf, receivedCrc_append, joinBytes_highByte_lowByte]

/-- Steps 2 to 4 pass on a frame with its own CRC, and step 5 or 6 gives the verdict. -/
theorem frameVerdict_frameOf (a f : Byte) (p : List Byte) :
    frameVerdict a f (frameOf a f p) =
      if f = 0x03#8 then readHoldingVerdict (frameOf a f p) else writeCoilVerdict (frameOf a f p) := by
  have h0 : frameByte (frameOf a f p) 0 = a := rfl
  have h1 : frameByte (frameOf a f p) 1 = f := rfl
  simp [frameVerdict, h0, h1]

/-- The verdict on the frame of a payload well-formed for the response. -/
theorem frameVerdict_of_wellFormed {f : Byte} {p : List Byte} (a : Byte) (h : WellFormedResponse f p) :
    frameVerdict a f (frameOf a f p) = ⟨.success, .none, payloadRegisters f p⟩ := by
  have hlen := length_frameOf a f p
  rw [frameVerdict_frameOf]
  rcases h with ⟨rfl, n, rest, rfl, hrest, heven⟩ | ⟨rfl, hp⟩
  · have h2 : frameByte (frameOf a 0x03#8 (n :: rest)) 2 = n := rfl
    have hl : (frameOf a 0x03#8 (n :: rest)).length = n.toNat + 5 := by simp [hlen, hrest]
    simp [readHoldingVerdict, h2, hl, heven]
  · simp [writeCoilVerdict, hlen, hp, payloadRegisters]

/-- What DECODE has checked when it answers SUCCESS. -/
theorem frameVerdict_success_checks {a f : Byte} {r : List Byte} (h : (frameVerdict a f r).tag = .success) :
    receivedCrc r = crc16 (frameBody r) ∧ frameByte r 0 = a ∧ frameByte r 1 = f ∧
      (f = 0x03#8 ∧ r.length = (frameByte r 2).toNat + 5 ∧ (frameByte r 2).toNat % 2 = 0 ∨
        f ≠ 0x03#8 ∧ r.length = 8) := by
  simp only [frameVerdict, readHoldingVerdict, writeCoilVerdict] at h
  split_ifs at h <;> simp_all

/-- DECODE answers SUCCESS only for a frame of a payload well-formed for the response. -/
theorem exists_payload_of_success {a f : Byte} {r : List Byte} (hf : f = 0x03#8 ∨ f = 0x05#8) (h5 : 5 ≤ r.length)
    (h : (frameVerdict a f r).tag = .success) : ∃ p, r = frameOf a f p ∧ WellFormedResponse f p := by
  obtain ⟨hcrc, h0, h1, hshape⟩ := frameVerdict_success_checks h
  clear h
  obtain ⟨body, lo, hi, rfl⟩ := exists_body (r := r) (by omega)
  rw [receivedCrc_append, frameBody_append, joinBytes_eq_iff] at hcrc
  obtain ⟨rfl, rfl⟩ := hcrc
  have hbody : 3 ≤ body.length := by simpa using h5
  match body, hbody with
  | b0 :: b1 :: b2 :: rest, _ =>
    obtain rfl : b0 = a := h0
    obtain rfl : b1 = f := h1
    refine ⟨b2 :: rest, rfl, ?_⟩
    rcases hshape with ⟨rfl, hlen, heven⟩ | ⟨hne, hlen⟩
    · change _ = b2.toNat + 5 at hlen
      change b2.toNat % 2 = 0 at heven
      exact .inl ⟨rfl, b2, rest, rfl, by simpa using hlen, heven⟩
    · exact .inr ⟨hf.resolve_left hne, by simpa using hlen⟩

/-- A frame of at most 256 bytes has at most 125 registers (10_state.md rule R33). -/
theorem payloadRegisters_le {f : Byte} {p : List Byte} (h : WellFormedResponse f p) (hlen : p.length + 4 ≤ 256) :
    payloadRegisters f p ≤ 125 := by
  rcases h with ⟨rfl, n, rest, rfl, hrest, -⟩ | ⟨rfl, -⟩
  · rw [payloadRegisters_read]
    simp only [List.length_cons] at hlen
    omega
  · simp [payloadRegisters]

/-- What DECODE leaves for the frame of a payload well-formed for the response. -/
theorem decodeFrame_of_wellFormed {s : State} {p : List Byte} (hr : DecodeReady s (frameOf s.addr s.func p))
    (hp : WellFormedResponse s.func p) :
    (decodeFrame (frameOf s.addr s.func p) s).status = 0x1#4 ∧
      (decodeFrame (frameOf s.addr s.func p) s).reason = 0x00#8 ∧
      (decodeFrame (frameOf s.addr s.func p) s).nreg.toNat = payloadRegisters s.func p ∧
      (decodeFrame (frameOf s.addr s.func p) s).decoded = true := by
  obtain ⟨⟨-, -, h256⟩, hlen, -⟩ := hr
  rw [length_frameOf] at hlen
  have hle := payloadRegisters_le hp (hlen ▸ h256)
  have hlt : payloadRegisters s.func p < 256 := by omega
  simp [frameVerdict_of_wellFormed _ hp, hlt]

/-- What DECODE leaves for a frame it has read: SUCCESS, where it is the frame of a payload well-formed for the response
(`decodeFrame_of_wellFormed`), and otherwise another outcome with NREG 0 and no views. -/
theorem decodeFrame_cases {s : State} {r : List Byte} (hr : DecodeReady s r) :
    (∃ p, r = frameOf s.addr s.func p ∧ WellFormedResponse s.func p) ∨
    ((decodeFrame r s).status ≠ 0x1#4 ∧ (decodeFrame r s).nreg = 0x00#8 ∧ (decodeFrame r s).decoded = false) := by
  obtain ⟨⟨hf, h5, -⟩, hlen, -⟩ := hr
  by_cases hv : (frameVerdict s.addr s.func r).tag = .success
  · exact .inl (exists_payload_of_success hf (hlen ▸ h5) hv)
  · right
    rcases frameVerdict_cases s.addr s.func r with h | h | h | h | ⟨h, -⟩ | ⟨h, -⟩ <;> simp_all

end Sys2Proof.Proofs
end

section
/-! PROOFS. Every step keeps the block in a legal state: the invariant `Inv`, operation by operation. -/

namespace Sys2Proof.Proofs

open Sys2Proof.Machine

/-- The port's own fields and the CRC accumulator are no part of the invariant. -/
theorem inv_of_crc_and_port {s : State} (h : Inv s) (crc : Half) (pending : List BusEvent) (readData : Option Byte) :
    Inv { s with crc := crc, pending := pending, readData := readData } :=
  { h with }

theorem inv_resetBlock (s : State) : Inv (resetBlock s) where
  txbufWf := List.Pairwise.nil
  rxbufWf := List.Pairwise.nil
  txbufInBuffer := by simp
  rxbufInBuffer := by simp
  txlenLegal := .inl rfl
  nregLegal := by simp
  resultLegal := by simp [legalResults]
  viewsLegal := by simp

/-- A host write puts one byte into a canonical buffer, or ends the views, or leaves what `Inv` speaks of alone. -/
theorem inv_writeLocation {s : State} (h : Inv s) {off : Nat} {l : Location} (hl : locate off = some l) (v : Byte) :
    Inv (writeLocation l v s) := by
  cases l with
  | txbuf i =>
    have hi : i < Config.bufferSize := locate_buffer_lt (.inl hl)
    exact { h with
      txbufWf := Memory.wf_write h.txbufWf i v
      txbufInBuffer := Memory.inBuffer_write h.txbufInBuffer hi v }
  | rxbuf i =>
    have hi : i < Config.bufferSize := locate_buffer_lt (.inr hl)
    exact { h with
      rxbufWf := Memory.wf_write h.rxbufWf i v
      rxbufInBuffer := Memory.inBuffer_write h.rxbufInBuffer hi v
      viewsLegal := by simp [writeLocation] }
  | rxlenLo => exact { h with viewsLegal := by simp [writeLocation] }
  | rxlenHi => exact { h with viewsLegal := by simp [writeLocation] }
  | _ => exact { h with }

theorem inv_rejectArgument_reservedCommand {s : State} (h : Inv s) : Inv (rejectArgument .reservedCommand s) :=
  { h with resultLegal := by simp [legalResults] }

theorem inv_encodeReject {s : State} (h : Inv s) {r : Reason} (hr : encodeError s = some r) : Inv (encodeReject r s) :=
  { h with
    txlenLegal := .inl rfl
    resultLegal := by
      rcases encodeError_eq_some hr with rfl | rfl | rfl <;> simp [legalResults] }

/-- The four stores of ENCODE stay inside TXBUF, as PLEN is at most 252. -/
theorem inv_encodeBuild {s : State} (h : Inv s) {p : List Byte} (hp : EncodeReady s p) : Inv (encodeBuild p s) := by
  obtain ⟨⟨-, -, -, hplen⟩, -, -⟩ := hp
  have hfit : s.plen.toNat + 3 < 256 := by omega
  exact { h with
    txbufWf := Memory.wf_write (Memory.wf_write (Memory.wf_write (Memory.wf_write h.txbufWf _ _) _ _) _ _) _ _
    txbufInBuffer := by
      refine Memory.inBuffer_write (Memory.inBuffer_write (Memory.inBuffer_write
        (Memory.inBuffer_write h.txbufInBuffer ?_ _) ?_ _) ?_ _) ?_ _ <;> simp only [Config.bufferSize] <;> omega
    txlenLegal := by
      right
      rw [encodeBuild_txlen, BitVec.toNat_ofNat]
      omega
    resultLegal := by simp [legalResults] }

theorem inv_decodeReject {s : State} (h : Inv s) {o : OutcomeTag} {r : Reason} (he : decodeError s = some (o, r)) :
    Inv (decodeReject o r s) :=
  { h with
    nregLegal := by simp
    resultLegal := by
      have hor := decodeError_eq_some he
      simp only [Prod.mk.injEq] at hor
      rcases hor with ⟨rfl, rfl⟩ | ⟨rfl, rfl⟩ | ⟨rfl, rfl⟩ <;> simp [legalResults]
    viewsLegal := by simp }

theorem decodeFrame_result_legal (s : State) (r : List Byte) :
    ((decodeFrame r s).status, (decodeFrame r s).reason) ∈ legalResults := by
  rcases frameVerdict_cases s.addr s.func r with h | h | h | h | ⟨h, -⟩ | ⟨h, -⟩ <;> simp [h, legalResults]

/-- A DECODE with SUCCESS leaves a decoded frame behind the views. -/
theorem inv_decodeFrame {s : State} (h : Inv s) {r : List Byte} (hr : DecodeReady s r) : Inv (decodeFrame r s) := by
  have ⟨⟨_, _, h256⟩, hlen, hholds⟩ := hr
  rcases decodeFrame_cases hr with ⟨p, rfl, hp⟩ | ⟨-, hnreg, hdec⟩
  · rw [length_frameOf] at hlen
    obtain ⟨-, -, hnreg, -⟩ := decodeFrame_of_wellFormed hr hp
    exact { h with
      nregLegal := hnreg ▸ payloadRegisters_le hp (hlen ▸ h256)
      resultLegal := decodeFrame_result_legal s _
      viewsLegal := fun _ => ⟨s.addr, s.func, p, hholds, hlen.symm, h256, hp, hnreg⟩ }
  · exact { h with
      nregLegal := by rw [hnreg]; decide
      resultLegal := decodeFrame_result_legal s r
      viewsLegal := by rw [hdec]; exact nofun }

theorem inv_exec {i : Instr} {s t : State} (h : Inv s) (hx : exec i s = .next t) : Inv t := by
  rcases exec_next_cases hx with rfl | rfl | rfl | ⟨r, hr, rfl⟩ | ⟨p, hp, rfl⟩ | ⟨o, r, he, rfl⟩ | ⟨r, hr, rfl⟩ | rfl
  · exact h
  · exact inv_of_crc_and_port h _ _ _
  · exact inv_of_crc_and_port h _ _ _
  · exact inv_encodeReject h hr
  · exact inv_encodeBuild h hp
  · exact inv_decodeReject h he
  · exact inv_decodeFrame h hr
  · exact inv_rejectArgument_reservedCommand h

/-- Settles O53: each operation a step can perform keeps `Inv`. -/
theorem everyStepKeepsTheStateLegal : Obligations.EveryStepKeepsTheStateLegal := by
  intro s t h hstep
  obtain ⟨-, ⟨-, rfl⟩ | ⟨e, rest, -, hevent⟩⟩ := step_next_cases hstep
  · exact h
  · have hrest : Inv { s with pending := rest } := inv_of_crc_and_port h _ _ _
    rcases hevent with ⟨off, v, -, rfl⟩ | ⟨v, -, hx⟩ | ⟨off, v, l, -, hl, -, rfl⟩ | ⟨-, rfl⟩
    · exact inv_of_crc_and_port h _ _ _
    · exact inv_exec hrest hx
    · exact inv_writeLocation hrest hl v
    · exact inv_resetBlock _

end Sys2Proof.Proofs
end

section
/-! PROOFS. What ENCODE and DECODE answer: the frame ENCODE leaves, NREG, the views, and what DECODE reads. -/

namespace Sys2Proof.Proofs

open Sys2Proof.Machine

/-! ## The CRC of a frame -/

/-- A bit step of a value whose bit 0 is clear is a shift alone. -/
theorem crcBit_of_bit_zero_clear {c : Half} (h : c.getLsbD 0 = false) : crcBit c = c >>> 1 := by
  rw [crcBit, h]
  rfl

/-- `n` bit steps of a value whose low `n` bits are clear are a shift alone. -/
theorem crcBits_of_low_bits_clear {n : Nat} {c : Half} (h : ∀ i, i < n → c.getLsbD i = false) :
    crcBits n c = c >>> n := by
  induction n generalizing c with
  | zero => simp [crcBits]
  | succ n ih =>
    have hlow : ∀ i, i < n → (c >>> 1).getLsbD i = false := by
      intro i hi
      rw [BitVec.getLsbD_ushiftRight]
      exact h (1 + i) (by omega)
    rw [crcBits, crcBit_of_bit_zero_clear (h 0 (by omega)), ih hlow, ← BitVec.shiftRight_add, Nat.add_comm]

/-- The low byte of the accumulator, fed back, leaves the high byte. -/
theorem crcByte_lowByte (c : Half) : crcByte c (lowByte c) = c >>> 8 := by
  have hlow : ∀ i, i < 8 → (c ^^^ (lowByte c).setWidth 16).getLsbD i = false := by
    intro i hi
    simp [lowByte, hi, Nat.lt_trans hi]
  rw [crcByte_eq, crcBits_of_low_bits_clear hlow]
  apply BitVec.eq_of_getLsbD_eq
  intro i hi
  simp [lowByte]

theorem setWidth_highByte (c : Half) : (highByte c).setWidth 16 = c >>> 8 := by
  apply BitVec.eq_of_toNat_eq
  rw [BitVec.toNat_setWidth, toNat_highByte, BitVec.toNat_ushiftRight, Nat.shiftRight_eq_div_pow]
  omega

/-- A sequence followed by its CRC, low byte first, has CRC zero (40_crc.md rule R105). -/
theorem crc16_append_own_crc (bs : List Byte) : crc16 (bs ++ [lowByte (crc16 bs), highByte (crc16 bs)]) = 0x0000#16 := by
  have hzero : crcBits 8 0#16 = 0#16 := by decide
  rw [crc16_append]
  simp only [List.foldl_cons, List.foldl_nil]
  rw [crcByte_lowByte, crcByte_eq, setWidth_highByte, BitVec.xor_self, hzero]

theorem crc16_frameOf (a f : Byte) (p : List Byte) : crc16 (frameOf a f p) = 0x0000#16 :=
  crc16_append_own_crc _

/-! ## Runs of bytes -/

theorem holds_of_append_left {m : Memory} {i : Nat} {bs cs : List Byte} (h : m.Holds i (bs ++ cs)) : m.Holds i bs := by
  intro k hk
  rw [h k (by rw [List.length_append]; omega), List.getElem?_append_left hk]

/-- A buffer that holds a frame from its start holds the payload from index 2. -/
theorem holds_payload_of_frameOf {m : Memory} {a f : Byte} {p : List Byte} (h : m.Holds 0 (frameOf a f p)) :
    m.Holds 2 p :=
  holds_of_append_left (Memory.Holds.tail (Memory.Holds.tail h))

/-- A run of bytes is held by any buffer that reads the same there. -/
theorem holds_of_same_reads {m m' : Memory} {bs : List Byte} (h : m.Holds 0 bs)
    (hreads : ∀ k, k < bs.length → m'.read k = m.read k) : m'.Holds 0 bs := by
  intro k hk
  rw [Nat.zero_add, hreads k hk, ← h k hk, Nat.zero_add]

/-! ## ENCODE -/

theorem execEncode_next {s t : State} (h : exec .encode s = .next t) :
    (∃ r, encodeError s = some r ∧ t = encodeReject r s) ∨ (∃ p, EncodeReady s p ∧ t = encodeBuild p s) := by
  rw [exec_encode] at h
  rcases execEncode_cases s with ⟨r, he, hx⟩ | ⟨p, hp, hx⟩ | ⟨f, -, -, hx⟩ <;> rw [hx] at h <;> cases h
  · exact .inl ⟨r, he, rfl⟩
  · exact .inr ⟨p, hp, rfl⟩

/-- ENCODE leaves the whole frame in TXBUF: its own four stores, and between them the payload, which was there already. -/
theorem encodeBuild_holds_frame {s : State} {p : List Byte} (h : EncodeReady s p) :
    (encodeBuild p s).txbuf.Holds 0 (frameOf s.addr s.func p) := by
  obtain ⟨-, hlen, hp⟩ := h
  intro k hk
  rw [length_frameOf] at hk
  rw [Nat.zero_add, encodeBuild_read, ← hlen, frameOf]
  match k with
  | 0 => simp
  | 1 => simp
  | k + 2 =>
    rcases Nat.lt_trichotomy k p.length with hlt | rfl | hgt
    · have hpayload : s.txbuf.read (k + 2) = p[k]? := Nat.add_comm 2 k ▸ hp k hlt
      rw [if_neg (by omega), if_neg (by omega), if_neg (by omega), if_neg (by omega), hpayload]
      exact (List.getElem?_append_left hlt).symm
    · simp
    · obtain rfl : k = p.length + 1 := by omega
      simp

/-- Settles O36: ENCODE leaves a body followed by its own CRC. -/
theorem encodedFrameHasZeroResidue : Obligations.EncodedFrameHasZeroResidue := by
  intro s t hx hstatus
  rcases execEncode_next hx with ⟨r, -, rfl⟩ | ⟨p, hp, rfl⟩
  · rw [encodeReject_status] at hstatus
    exact absurd hstatus (by decide)
  · have ⟨⟨_, _, _, hplen⟩, hlen, _⟩ := hp
    have htxlen : (frameOf s.addr s.func p).length = (encodeBuild p s).txlen.toNat := by
      rw [length_frameOf, encodeBuild_txlen, BitVec.toNat_ofNat]
      omega
    exact ⟨frameOf s.addr s.func p, Memory.slice_of_holds htxlen (encodeBuild_holds_frame hp), htxlen, crc16_frameOf ..⟩

/-! ## DECODE -/

theorem execDecode_next {s t : State} (h : exec .decode s = .next t) :
    (∃ o r, decodeError s = some (o, r) ∧ t = decodeReject o r s) ∨ (∃ r, DecodeReady s r ∧ t = decodeFrame r s) := by
  rw [exec_decode] at h
  rcases execDecode_cases s with ⟨o, r, he, hx⟩ | ⟨r, hr, hx⟩ | ⟨f, -, -, hx⟩ <;> rw [hx] at h <;> cases h
  · exact .inl ⟨o, r, he, rfl⟩
  · exact .inr ⟨r, hr, rfl⟩

/-- A check of DECODE that fails is no success. -/
theorem decodeReject_status_ne_success {s : State} {o : OutcomeTag} {r : Reason} (h : decodeError s = some (o, r)) :
    (decodeReject o r s).status ≠ 0x1#4 := by
  have hor := decodeError_eq_some h
  simp only [Prod.mk.injEq] at hor
  rcases hor with ⟨rfl, rfl⟩ | ⟨rfl, rfl⟩ | ⟨rfl, rfl⟩ <;> simp

/-- Settles O45: NREG is that of the verdict on the frame, and the checks before it clear NREG. -/
theorem nregCountsOnlyASuccessfulRead : Obligations.NregCountsOnlyASuccessfulRead := by
  intro s t hx
  rcases execDecode_next hx with ⟨o, r, he, rfl⟩ | ⟨r, hr, rfl⟩
  · exact ⟨fun _ => rfl, fun h => absurd h (decodeReject_status_ne_success he)⟩
  · rcases decodeFrame_cases hr with ⟨p, rfl, hp⟩ | ⟨hstatus, hnreg, -⟩
    · obtain ⟨hstatus, -, hnreg, -⟩ := decodeFrame_of_wellFormed hr hp
      obtain ⟨-, -, hholds⟩ := hr
      constructor
      · intro h
        have hfunc : s.func ≠ 0x03#8 := h.resolve_left (fun hne => hne hstatus)
        exact BitVec.eq_of_toNat_eq (hnreg.trans (payloadRegisters_of_ne_read hfunc))
      · intro _ hfunc
        rcases hp with ⟨-, n, rest, rfl, -, heven⟩ | ⟨hcoil, -⟩
        · have hread : s.rxbuf.read 2 = some n := (holds_payload_of_frameOf hholds).head
          exact ⟨n, hread, heven, by rw [hnreg, hfunc, payloadRegisters_read]⟩
        · rw [hfunc] at hcoil
          exact absurd hcoil (by decide)
    · exact ⟨fun _ => hnreg, fun h => absurd h hstatus⟩

/-! ## The views of a decoded frame -/

theorem length_registerValues : ∀ bs : List Byte, (registerValues bs).length = bs.length / 2
  | [] => rfl
  | [_] => by simp [registerValues]
  | _ :: _ :: rest => by
    rw [registerValues, List.length_cons, length_registerValues rest, List.length_cons, List.length_cons]
    omega

/-- Register `i` is made of the bytes `2 i` and `2 i + 1`, the high byte first (20_memory.md rule R59). -/
theorem registerValues_getElem? : ∀ {bs : List Byte} {i : Nat} (h : 2 * i + 1 < bs.length),
    (registerValues bs)[i]? = some (joinBytes bs[2 * i] bs[2 * i + 1])
  | _ :: _ :: _, 0, _ => rfl
  | _ :: _ :: rest, i + 1, h => by
    have hrest : 2 * i + 1 < rest.length := by simp only [List.length_cons] at h; omega
    simpa [registerValues, Nat.mul_add] using registerValues_getElem? hrest

theorem views_eq_of_not_decoded {s u : State} (hs : s.decoded = false) (hu : u.decoded = false) :
    u.payloadView = s.payloadView ∧ u.registersView = s.registersView ∧ u.echoView = s.echoView := by
  obtain ⟨hp, hr, he⟩ := views_of_not_decoded hs
  obtain ⟨hp', hr', he'⟩ := views_of_not_decoded hu
  exact ⟨hp'.trans hp.symm, hr'.trans hr.symm, he'.trans he.symm⟩

/-- The views where they are defined are functions of the decoded frame alone: its payload, the registers after the byte
count for function 0x03, and the coil and its value for function 0x05. -/
theorem views_of_decoded_frame {s : State} {a f : Byte} {p : List Byte} (hdec : s.decoded = true)
    (hholds : s.rxbuf.Holds 0 (frameOf a f p)) (hlen : p.length + 4 = s.rxlen.toNat) (hp : WellFormedResponse f p)
    (hnreg : s.nreg.toNat = payloadRegisters f p) :
    s.payloadView = some p ∧
      s.registersView = (if f = 0x03#8 then some (registerValues p.tail) else none) ∧
      s.echoView = (if f = 0x05#8 then some (registerValues p) else none) := by
  have hread : s.rxbuf.read 1 = some f := (Memory.Holds.tail hholds).head
  have hfunction : s.decodedFunction = some f := (decodedFunction_of_decoded hdec).trans hread
  have hpayload := holds_payload_of_frameOf hholds
  refine ⟨?_, ?_⟩
  · rw [payloadView_of_function hfunction, Memory.slice_of_holds (by omega) hpayload]
  rcases hp with ⟨rfl, n, rest, rfl, hrest, heven⟩ | ⟨rfl, hfour⟩
  · have hcount : rest.length = 2 * s.nreg.toNat := by rw [hnreg, payloadRegisters_read]; omega
    rw [registersView_of_function hfunction, Memory.slice_of_holds hcount hpayload.tail]
    simp [State.echoView, hfunction]
  · rw [echoView_of_function hfunction, Memory.slice_of_holds hfour hpayload]
    simp [State.registersView, hfunction]

/-- The views after a DECODE that finishes with SUCCESS. -/
theorem decodeFrame_views {s : State} {a f : Byte} {p : List Byte} (ha : s.addr = a) (hf : s.func = f)
    (hr : DecodeReady s (frameOf a f p)) (hp : WellFormedResponse f p) :
    (decodeFrame (frameOf a f p) s).payloadView = some p ∧
      (decodeFrame (frameOf a f p) s).registersView = (if f = 0x03#8 then some (registerValues p.tail) else none) ∧
      (decodeFrame (frameOf a f p) s).echoView = (if f = 0x05#8 then some (registerValues p) else none) := by
  subst ha hf
  have ⟨_, hlen, hholds⟩ := hr
  obtain ⟨-, -, hnreg, hdec⟩ := decodeFrame_of_wellFormed hr hp
  rw [length_frameOf] at hlen
  exact views_of_decoded_frame hdec hholds hlen hp hnreg

/-- The views after a DECODE are functions of ADDR, FUNC and the frame it reads. -/
theorem decodeFrame_views_congr {s u : State} {r : List Byte} (hr : DecodeReady s r) (hru : DecodeReady u r)
    (haddr : u.addr = s.addr) (hfunc : u.func = s.func) :
    (decodeFrame r u).payloadView = (decodeFrame r s).payloadView ∧
      (decodeFrame r u).registersView = (decodeFrame r s).registersView ∧
      (decodeFrame r u).echoView = (decodeFrame r s).echoView := by
  rcases decodeFrame_cases hr with ⟨p, rfl, hp⟩ | ⟨-, -, hdec⟩
  · obtain ⟨hpay, hregs, hecho⟩ := decodeFrame_views rfl rfl hr hp
    obtain ⟨hpayu, hregsu, hechou⟩ := decodeFrame_views haddr hfunc hru hp
    exact ⟨hpayu.trans hpay.symm, hregsu.trans hregs.symm, hechou.trans hecho.symm⟩
  · have hdecu : (decodeFrame r u).decoded = false := by
      rw [← hdec, decodeFrame_decoded, decodeFrame_decoded, haddr, hfunc]
    exact views_eq_of_not_decoded hdec hdecu

/-- The registers of a 0x03 payload `n :: rest`, each with the two payload bytes it is made of. -/
theorem registerValues_of_payload {n : Byte} {rest : List Byte} {i : Nat} (h : 2 * i + 1 < rest.length) :
    ∃ v hi lo, (registerValues rest)[i]? = some v ∧ (n :: rest)[1 + 2 * i]? = some hi ∧
      (n :: rest)[2 + 2 * i]? = some lo ∧ v.toNat = hi.toNat * 256 + lo.toNat := by
  refine ⟨_, rest[2 * i], rest[2 * i + 1], registerValues_getElem? h, ?_, ?_, toNat_joinBytes ..⟩
  · rw [Nat.add_comm, List.getElem?_cons_succ, List.getElem?_eq_getElem]
  · rw [Nat.add_comm, List.getElem?_cons_succ, List.getElem?_eq_getElem]

/-- Settles O46: the frame of a well-formed payload succeeds, and the views are read off the frame in RXBUF. -/
theorem decodedViewsShowThePayload : Obligations.DecodedViewsShowThePayload := by
  intro s p hr hp
  obtain ⟨hstatus, hreason, hnreg, -⟩ := decodeFrame_of_wellFormed hr hp
  obtain ⟨hpayload, hregs, hecho⟩ := decodeFrame_views rfl rfl hr hp
  refine ⟨_, execDecode_of_ready hr, hstatus, hreason, hpayload, ?_, ?_⟩
  · intro hfunc
    have hne : s.func ≠ 0x05#8 := by rw [hfunc]; decide
    rw [if_pos hfunc] at hregs
    rw [if_neg hne] at hecho
    rcases hp with ⟨-, n, rest, rfl, hrest, heven⟩ | ⟨hcoil, -⟩
    · have hcount := hnreg.trans (if_pos hfunc)
      refine ⟨hecho, n, rest, registerValues rest, rfl, hcount, hregs, ?_, fun i hi => registerValues_of_payload ?_⟩
      · rw [length_registerValues, hrest, hcount, List.headD_cons]
      · rw [hcount, List.headD_cons] at hi
        omega
    · exact absurd hcoil hne
  · intro hfunc
    have hne : s.func ≠ 0x03#8 := by rw [hfunc]; decide
    rw [if_neg hne] at hregs
    rw [if_pos hfunc] at hecho
    refine ⟨hregs, BitVec.eq_of_toNat_eq (hnreg.trans (payloadRegisters_of_ne_read hne)), ?_⟩
    rcases hp with ⟨hread, -⟩ | ⟨-, hfour⟩
    · exact absurd hread hne
    · obtain ⟨a, b, c, d, rfl⟩ := List.length_eq_four.mp hfour
      exact ⟨a, b, c, d, rfl, hecho⟩

/-- Settles O47: the checks read ADDR, FUNC and RXLEN, the verdict reads the frame, and the views of a decoded frame are
functions of it. -/
theorem decodeReadsOnlyItsFrame : Obligations.DecodeReadsOnlyItsFrame := by
  intro s u t haddr hfunc hrxlen hreads hx
  have hargs : DecodeArguments u ↔ DecodeArguments s := by simp only [DecodeArguments, hfunc, hrxlen]
  rcases execDecode_next hx with ⟨o, r, he, rfl⟩ | ⟨r, hr, rfl⟩
  · have heu : decodeError u = some (o, r) := by
      rw [← he]
      simp only [decodeError, hfunc, hrxlen]
    have hnot : ¬ DecodeArguments s := by
      rw [← decodeError_eq_none_iff, he]
      exact nofun
    obtain ⟨hpayload, hregs, hecho⟩ := views_eq_of_not_decoded (decodeReject_decoded o r s) (decodeReject_decoded o r u)
    exact ⟨_, execDecode_of_error heu, rfl, rfl, rfl, hpayload, hregs, hecho, fun h => absurd h hnot, fun _ => ⟨rfl, rfl⟩⟩
  · have ⟨hready, hlen, hholds⟩ := hr
    have hru : DecodeReady u r :=
      ⟨hargs.mpr hready, hlen.trans (hrxlen ▸ rfl), holds_of_same_reads hholds fun k hk => hreads k (hlen ▸ hk)⟩
    obtain ⟨hpayload, hregs, hecho⟩ := decodeFrame_views_congr hr hru haddr hfunc
    refine ⟨_, execDecode_of_ready hru, ?_, ?_, ?_, hpayload, hregs, hecho, fun _ => rfl, fun h => absurd hready h⟩
    · rw [decodeFrame_status, decodeFrame_status, haddr, hfunc]
    · rw [decodeFrame_reason, decodeFrame_reason, haddr, hfunc]
    · rw [decodeFrame_nreg, decodeFrame_nreg, haddr, hfunc]

end Sys2Proof.Proofs
end

section
/-! PROOFS. What commands and steps leave unchanged: the host's side, the result registers, and the views. -/

namespace Sys2Proof.Proofs

open Sys2Proof.Machine

/-! ## What a command writes -/

/-- A command other than ENCODE and DECODE writes at most CRC, STATUS and REASON. -/
theorem exec_next_of_not_codec {i : Instr} {s t : State} (he : i ≠ .encode) (hd : i ≠ .decode)
    (h : exec i s = .next t) :
    ∃ crc status reason, t = { s with crc := crc, status := status, reason := reason } := by
  cases i with
  | encode => exact absurd rfl he
  | decode => exact absurd rfl hd
  | _ => cases h; exact ⟨_, _, _, rfl⟩

/-- No command writes a register of the host's, RXBUF or the model's own port (10_state.md rules R26 to R31 and R36). -/
theorem exec_keeps_host_side {i : Instr} {s t : State} (h : exec i s = .next t) :
    KeepsHostRegisters s t ∧ t.rxbuf = s.rxbuf ∧ KeepsPort s t := by
  rcases exec_next_cases h with rfl | rfl | rfl | ⟨r, -, rfl⟩ | ⟨p, -, rfl⟩ | ⟨o, r, -, rfl⟩ | ⟨r, -, rfl⟩ | rfl <;>
    exact ⟨⟨rfl, rfl, rfl, rfl, rfl⟩, rfl, rfl, rfl, rfl⟩

/-- Only ENCODE writes TXLEN and TXBUF (10_state.md rule R32). -/
theorem exec_keeps_tx {i : Instr} {s t : State} (h : exec i s = .next t) (hi : i ≠ .encode) :
    t.txlen = s.txlen ∧ t.txbuf = s.txbuf := by
  by_cases hd : i = .decode
  · subst hd
    rcases execDecode_next h with ⟨o, r, -, rfl⟩ | ⟨r, -, rfl⟩ <;> exact ⟨rfl, rfl⟩
  · obtain ⟨_, _, _, rfl⟩ := exec_next_of_not_codec hi hd h
    exact ⟨rfl, rfl⟩

/-- Only DECODE writes NREG and says whether the views are defined (10_state.md rules R33 and R37). -/
theorem exec_keeps_nreg_and_decoded {i : Instr} {s t : State} (h : exec i s = .next t) (hi : i ≠ .decode) :
    t.nreg = s.nreg ∧ t.decoded = s.decoded := by
  by_cases he : i = .encode
  · subst he
    rcases execEncode_next h with ⟨r, -, rfl⟩ | ⟨p, -, rfl⟩ <;> exact ⟨rfl, rfl⟩
  · obtain ⟨_, _, _, rfl⟩ := exec_next_of_not_codec he hi h
    exact ⟨rfl, rfl⟩

theorem sameBytes_of_eq {m m' : Memory} (h : m' = m) : m.SameBytes m' := fun _ => h ▸ rfl

/-- Settles O50: no command writes the host's side, and TXLEN, TXBUF and NREG have one writer each. -/
theorem commandsLeaveTheHostsSideAlone : Obligations.CommandsLeaveTheHostsSideAlone := by
  intro i s t h
  obtain ⟨hregs, hrxbuf, hport⟩ := exec_keeps_host_side h
  exact ⟨hregs, sameBytes_of_eq hrxbuf, hport, fun hi => (exec_keeps_tx h hi).imp_right sameBytes_of_eq,
    exec_keeps_nreg_and_decoded h⟩

/-! ## The command a byte selects -/

theorem codeInRow_whole_byte {pattern b : Byte} : codeInRow 0xFF#8 pattern b = true ↔ b = pattern := by
  rw [codeInRow, show (0xFF#8 : Byte) = BitVec.allOnes 8 from rfl, BitVec.and_allOnes, beq_iff_eq]

/-- Every code from 0x05 on is reserved, whichever row of the table it lies in (30_encoding.md rule R72). -/
theorem exec_decodeByte_of_reserved {v : Byte} (h : 5 ≤ v.toNat) (s : State) :
    exec (decodeByte v) s = .next (rejectArgument .reservedCommand s) := by
  have hne : ∀ c : Byte, c.toNat < 5 → v ≠ c := by
    rintro c hc rfl
    omega
  simp only [decodeByte, codeInRow_whole_byte]
  rw [if_neg (hne _ (by decide)), if_neg (hne _ (by decide)), if_neg (hne _ (by decide)), if_neg (hne _ (by decide)),
    if_neg (hne _ (by decide))]
  split_ifs <;> rfl

/-- All that a write of `v` to CMD can do when it answers a next state, by the code `v` (30_encoding.md rule R71). -/
theorem exec_decodeByte_next {v : Byte} {s t : State} (h : exec (decodeByte v) s = .next t) :
    (v = 0x00#8 ∧ t = s) ∨ ((v = 0x01#8 ∨ v = 0x02#8) ∧ ∃ c, t = { s with crc := c }) ∨
    (v = 0x03#8 ∧ exec .encode s = .next t) ∨ (v = 0x04#8 ∧ exec .decode s = .next t) ∨
    (5 ≤ v.toNat ∧ t = rejectArgument .reservedCommand s) := by
  have hv : v = 0x00#8 ∨ v = 0x01#8 ∨ v = 0x02#8 ∨ v = 0x03#8 ∨ v = 0x04#8 ∨ 5 ≤ v.toNat := by bv_omega
  rcases hv with rfl | rfl | rfl | rfl | rfl | hv
  · cases h; exact .inl ⟨rfl, rfl⟩
  · cases h; exact .inr (.inl ⟨.inl rfl, _, rfl⟩)
  · cases h; exact .inr (.inl ⟨.inr rfl, _, rfl⟩)
  · exact .inr (.inr (.inl ⟨rfl, h⟩))
  · exact .inr (.inr (.inr (.inl ⟨rfl, h⟩)))
  · rw [exec_decodeByte_of_reserved hv] at h
    cases h
    exact .inr (.inr (.inr (.inr ⟨hv, rfl⟩)))

/-- Which codes change which result registers (10_state.md rules R24, R30, R32 and R33, 60_exceptions.md rule R176). -/
theorem results_changed_by_command {v : Byte} {s t : State} (h : exec (decodeByte v) s = .next t) :
    (t.status ≠ s.status ∨ t.reason ≠ s.reason → 3 ≤ v.toNat) ∧ (t.crc ≠ s.crc → 1 ≤ v.toNat ∧ v.toNat ≤ 4) ∧
      (t.txlen ≠ s.txlen → v = 0x03#8) ∧ (t.nreg ≠ s.nreg → v = 0x04#8) := by
  rcases exec_decodeByte_next h with ⟨rfl, rfl⟩ | ⟨hv, c, rfl⟩ | ⟨rfl, hx⟩ | ⟨rfl, hx⟩ | ⟨hv, rfl⟩
  · simp
  · rcases hv with rfl | rfl <;> simp
  · obtain ⟨hnreg, -⟩ := exec_keeps_nreg_and_decoded hx (by decide)
    exact ⟨fun _ => by decide, fun _ => by decide, fun _ => rfl, fun hne => absurd hnreg hne⟩
  · obtain ⟨htxlen, -⟩ := exec_keeps_tx hx (by decide)
    exact ⟨fun _ => by decide, fun _ => by decide, fun hne => absurd htxlen hne, fun _ => rfl⟩
  · have h3 : 3 ≤ v.toNat := by omega
    simp [h3]

/-- Settles O51: of the events but reset, only a write to CMD changes a result register, and its code says which. -/
theorem resultsChangeOnlyByTheirCommands : Obligations.ResultsChangeOnlyByTheirCommands := by
  intro s t hstep hnoreset
  obtain ⟨-, ⟨-, rfl⟩ | ⟨e, rest, hp, hevent⟩⟩ := step_next_cases hstep
  · simp
  · rcases hevent with ⟨off, v, -, rfl⟩ | ⟨v, rfl, hx⟩ | ⟨off, v, l, -, -, -, rfl⟩ | ⟨rfl, -⟩
    · simp
    · obtain ⟨hout, hcrc, htxlen, hnreg⟩ := results_changed_by_command hx
      exact ⟨fun hne => ⟨v, rest, hp, hout hne⟩, fun hne => ⟨v, rest, hp, hcrc hne⟩,
        fun hne => ⟨rest, htxlen hne ▸ hp⟩, fun hne => ⟨rest, hnreg hne ▸ hp⟩⟩
    · obtain ⟨⟨hstatus, hreason, hcrc, htxlen, hnreg⟩, -⟩ := writeLocation_keeps l v { s with pending := rest }
      simp [hstatus, hreason, hcrc, htxlen, hnreg]
    · exact absurd hp (hnoreset rest)

/-! ## The views -/

theorem registerAt_eq_rxlen_iff {off : Nat} :
    (registerAt off = .rxlenLo ↔ off = 0x00C) ∧ (registerAt off = .rxlenHi ↔ off = 0x00D) := by
  unfold registerAt
  split <;> simp_all

/-- The writes that end the views are those to RXLEN and RXBUF (10_state.md rule R37). -/
theorem endsViews_write_iff {off : Nat} {v : Byte} {l : Location} (hl : locate off = some l) (hc : l ≠ .cmd) :
    EndsViews (.write off v) ↔ l = .rxlenLo ∨ l = .rxlenHi ∨ ∃ i, l = .rxbuf i := by
  have h0 : off ≠ 0 := fun h => hc (Option.some.inj (hl.symm.trans (locate_eq_cmd_iff.mpr h)))
  simp only [EndsViews, h0, false_and, false_or]
  by_cases hreg : off < 0x100
  · obtain rfl : registerAt off = l := Option.some.inj ((locate_register hreg).symm.trans hl)
    have hbuf : ¬ ∃ i, registerAt off = .rxbuf i := fun ⟨i, hi⟩ => (registerAt_ne_buffer off i).2 hi
    have hrange : ¬ (0x200 ≤ off ∧ off < 0x300) := by omega
    simp only [registerAt_eq_rxlen_iff, hbuf, hrange]
  have hlo : off ≠ 0x00C := by omega
  have hhi : off ≠ 0x00D := by omega
  simp only [hlo, hhi, false_or]
  simp only [locate] at hl
  split_ifs at hl with htx hrx hhigh <;> cases hl
  · simp only [reduceCtorEq, exists_false, or_false, iff_false]
    omega
  · simp only [reduceCtorEq, false_or, Location.rxbuf.injEq, exists_eq', iff_true]
    omega
  · simp only [reduceCtorEq, exists_false, or_false, iff_false]
    omega

/-- A command but DECODE leaves the views as they are. -/
theorem exec_keeps_views {i : Instr} {s t : State} (h : exec i s = .next t) (hi : i ≠ .decode) :
    t.payloadView = s.payloadView ∧ t.registersView = s.registersView ∧ t.echoView = s.echoView := by
  obtain ⟨⟨-, -, -, -, hrxlen⟩, hrxbuf, -⟩ := exec_keeps_host_side h
  obtain ⟨hnreg, hdec⟩ := exec_keeps_nreg_and_decoded h hi
  exact views_congr hdec hrxbuf hrxlen hnreg

/-- A write to CMD of another code than that of DECODE leaves the views as they are. -/
theorem exec_decodeByte_keeps_views {v : Byte} {s t : State} (h : exec (decodeByte v) s = .next t) (hv : v ≠ 0x04#8) :
    t.payloadView = s.payloadView ∧ t.registersView = s.registersView ∧ t.echoView = s.echoView := by
  rcases exec_decodeByte_next h with ⟨-, rfl⟩ | ⟨-, c, rfl⟩ | ⟨-, hx⟩ | ⟨hdecode, -⟩ | ⟨-, rfl⟩
  · exact ⟨rfl, rfl, rfl⟩
  · exact views_congr rfl rfl rfl rfl
  · exact exec_keeps_views hx (by decide)
  · exact absurd hdecode hv
  · exact views_congr rfl rfl rfl rfl

/-- A write to RXLEN or RXBUF leaves no view, and one to any other location leaves them as they are. -/
theorem writeLocation_keeps_or_ends_views {off : Nat} {l : Location} (hl : locate off = some l) (hc : l ≠ .cmd)
    (v : Byte) (s : State) :
    (¬ EndsViews (.write off v) → (writeLocation l v s).payloadView = s.payloadView ∧
      (writeLocation l v s).registersView = s.registersView ∧ (writeLocation l v s).echoView = s.echoView) ∧
    (EndsViews (.write off v) → NoViews (writeLocation l v s)) := by
  rw [endsViews_write_iff hl hc]
  rcases writeLocation_views l v s with ⟨hrx, hdec⟩ | ⟨⟨hlo, hhi, hbuf⟩, hdec, hrxbuf, hrxlen⟩
  · exact ⟨fun hnot => absurd hrx hnot, fun _ => views_of_not_decoded hdec⟩
  · obtain ⟨⟨-, -, -, -, hnreg⟩, -⟩ := writeLocation_keeps l v s
    refine ⟨fun _ => views_congr hdec hrxbuf hrxlen hnreg, ?_⟩
    rintro (h | h | ⟨i, h⟩)
    · exact absurd h hlo
    · exact absurd h hhi
    · exact absurd h (hbuf i)

/-- Settles O57: the views are functions of RXBUF, RXLEN, NREG and `decoded`, which only the named events write. -/
theorem viewsLastUntilTheirFrameChanges : Obligations.ViewsLastUntilTheirFrameChanges := by
  intro s t hstep
  obtain ⟨-, ⟨hp, rfl⟩ | ⟨e, rest, hp, hevent⟩⟩ := step_next_cases hstep
  · simp [hp]
  suffices key : (¬ EndsViews e →
        t.payloadView = s.payloadView ∧ t.registersView = s.registersView ∧ t.echoView = s.echoView) ∧
      (EndsViews e → e ≠ .write 0x000 0x04#8 → NoViews t) by
    refine ⟨fun hkeep => key.1 (hkeep e rest hp), fun e' rest' hp' hends hne => ?_⟩
    obtain ⟨rfl, -⟩ := List.cons.inj (hp.symm.trans hp')
    exact key.2 hends hne
  rcases hevent with ⟨off, v, rfl, rfl⟩ | ⟨v, rfl, hx⟩ | ⟨off, v, l, rfl, hl, hc, rfl⟩ | ⟨rfl, rfl⟩
  · exact ⟨fun _ => views_congr rfl rfl rfl rfl, False.elim⟩
  · have hends : EndsViews (.write 0x000 v) ↔ v = 0x04#8 := by simp [EndsViews]
    rw [hends]
    exact ⟨exec_decodeByte_keeps_views (s := { s with pending := rest }) hx, fun hv hne => absurd (hv ▸ rfl) hne⟩
  · obtain ⟨hkeep, hend⟩ := writeLocation_keeps_or_ends_views hl hc v { s with pending := rest }
    exact ⟨hkeep, fun hends _ => hend hends⟩
  · exact ⟨fun hnot => absurd trivial hnot, fun _ _ => views_of_not_decoded (resetBlock_decoded _)⟩

end Sys2Proof.Proofs
end

section
/-! PROOFS. What a host read returns and a host write changes, location by location (20_memory.md rules R52 to R55). -/

namespace Sys2Proof.Proofs

open Sys2Proof.Machine

/-! ## The register map -/

/-- The upper part of the register page is reserved (10_state.md rule R34). -/
theorem locate_reserved_register {off : Nat} (h1 : 0x00F ≤ off) (h2 : off < 0x100) : locate off = some .reserved := by
  rw [locate_register h2, registerAt_reserved h1]

/-- The offset of a location; for a reserved one, which stands at many offsets, the lowest. -/
def offsetOf : Location → Nat
  | .cmd => 0x000
  | .status => 0x001
  | .reason => 0x002
  | .addr => 0x003
  | .func => 0x004
  | .plen => 0x005
  | .data => 0x006
  | .reserved => 0x007
  | .crcLo => 0x008
  | .crcHi => 0x009
  | .txlenLo => 0x00A
  | .txlenHi => 0x00B
  | .rxlenLo => 0x00C
  | .rxlenHi => 0x00D
  | .nreg => 0x00E
  | .txbuf i => 0x100 + i
  | .rxbuf i => 0x200 + i

theorem registerAt_reserved_or_offsetOf (off : Nat) : registerAt off = .reserved ∨ offsetOf (registerAt off) = off := by
  unfold registerAt
  split <;> simp [offsetOf]

theorem offsetOf_locate {off : Nat} {l : Location} (hl : locate off = some l) (h : l ≠ .reserved) :
    offsetOf l = off := by
  simp only [locate] at hl
  split_ifs at hl with hreg htx hrx hhigh <;> cases hl
  · exact (registerAt_reserved_or_offsetOf off).resolve_left h
  · exact Nat.add_sub_cancel' (Nat.le_of_not_lt hreg)
  · exact Nat.add_sub_cancel' (Nat.le_of_not_lt htx)
  · exact absurd rfl h

/-- No two offsets share a location, but the reserved ones (10_state.md rule R22). -/
theorem locate_ne_of_ne {off off' : Nat} {l l' : Location} (hl : locate off = some l) (hl' : locate off' = some l')
    (hne : off' ≠ off) (h : l ≠ .reserved) : l' ≠ l := by
  rintro rfl
  exact hne ((offsetOf_locate hl' h).symm.trans (offsetOf_locate hl h))

/-! ## Reads -/

theorem hostRead_of_error {off : Nat} {l : Location} {f : Fault} {s : State} (hl : locate off = some l)
    (h : readLocation l s = .error f) : hostRead off s = .fault f := by
  simp [hostRead, hl, h]

theorem hostRead_outside {off : Nat} (h : 0x400 ≤ off) (s : State) :
    hostRead off s = .fault (.outsideRegisterSpace off) := by
  simp [hostRead, locate_outside h]

theorem rd_of_some {s : State} {buf : BufferName} {i : Nat} {v : Byte} (h : (s.buffer buf).read i = some v) :
    s.rd buf i = .ok v := by
  simp [State.rd, h]

theorem rd_of_none {s : State} {buf : BufferName} {i : Nat} (h : (s.buffer buf).read i = none) :
    s.rd buf i = .error (.unwrittenByte buf i) := by
  simp [State.rd, h]

theorem rd_congr {s t : State} {buf : BufferName} {i : Nat} (h : (t.buffer buf).read i = (s.buffer buf).read i) :
    t.rd buf i = s.rd buf i := by
  simp [State.rd, h]

/-- The byte the host holds of an earlier read is no part of any location. -/
theorem readLocation_of_readData (l : Location) (s : State) (d : Option Byte) :
    readLocation l { s with readData := d } = readLocation l s := by
  cases l <;> rfl

/-- A location that reads the same in two states gives the host the same answer in both. -/
theorem hostRead_alike_of_readLocation {off : Nat} {l : Location} {s t : State} (hl : locate off = some l)
    (h : readLocation l t = readLocation l s) :
    (∃ w, ReadAnswers s off w ∧ ReadAnswers t off w) ∨ (∃ f, hostRead off s = .fault f ∧ hostRead off t = .fault f) := by
  cases hs : readLocation l s with
  | ok w => exact .inl ⟨w, hostRead_of_ok hl hs, hostRead_of_ok hl (h.trans hs)⟩
  | error f => exact .inr ⟨f, hostRead_of_error hl hs, hostRead_of_error hl (h.trans hs)⟩

/-- A read that answers gives the same answer again. -/
theorem hostRead_again {off : Nat} {s t : State} (h : hostRead off s = .next t) : hostRead off t = .next t := by
  obtain ⟨d, rfl⟩ := hostRead_next h
  cases hl : locate off with
  | none => simp [hostRead, hl] at h
  | some l =>
    rcases hostRead_alike_of_readLocation hl (readLocation_of_readData l s (some d)) with ⟨w, hs, ht⟩ | ⟨f, hs, -⟩
    · obtain rfl : w = d := by simpa using hs.symm.trans h
      exact ht
    · cases hs.symm.trans h

/-! ## Halves as arithmetic -/

theorem lowByte_eq_ofNat (v : Half) : lowByte v = BitVec.ofNat 8 (v.toNat % 256) := by
  apply BitVec.eq_of_toNat_eq
  simp

theorem highByte_eq_ofNat (v : Half) : highByte v = BitVec.ofNat 8 (v.toNat / 256) := by
  apply BitVec.eq_of_toNat_eq
  have := v.isLt
  simp
  omega

theorem joinBytes_eq_ofNat (hi lo : Byte) : joinBytes hi lo = BitVec.ofNat 16 (hi.toNat * 256 + lo.toNat) := by
  apply BitVec.eq_of_toNat_eq
  have := hi.isLt
  have := lo.isLt
  simp
  omega

/-! ## Writes -/

/-- A write changes what is read at no other location. -/
theorem readLocation_writeLocation_of_ne {l l' : Location} (h : l' ≠ l) (v : Byte) (s : State) :
    readLocation l' (writeLocation l v s) = readLocation l' s := by
  cases l with
  | addr | func | plen | data | rxlenLo | rxlenHi =>
    cases l' <;> simp_all [readLocation, writeLocation, State.rd, State.buffer]
  | txbuf i =>
    cases l' with
    | txbuf j => exact rd_congr (Memory.read_write_of_ne s.txbuf v fun hji => h (hji ▸ rfl))
    | _ => rfl
  | rxbuf i =>
    cases l' with
    | rxbuf j => exact rd_congr (Memory.read_write_of_ne s.rxbuf v fun hji => h (hji ▸ rfl))
    | _ => rfl
  | _ => rfl

/-- The locations the host can write and read back (20_memory.md rule R53). -/
def ReadWrite : Location → Prop
  | .addr | .func | .plen | .data | .rxlenLo | .rxlenHi | .txbuf _ | .rxbuf _ => True
  | _ => False

theorem readLocation_writeLocation_self {l : Location} (h : ReadWrite l) (v : Byte) (s : State) :
    readLocation l (writeLocation l v s) = .ok v := by
  cases l with
  | addr | func | plen | data => rfl
  | rxlenLo => exact congrArg _ (lowByte_joinBytes _ v)
  | rxlenHi => exact congrArg _ (highByte_joinBytes v _)
  | txbuf i => exact rd_of_some (Memory.read_write_self s.txbuf i v)
  | rxbuf i => exact rd_of_some (Memory.read_write_self s.rxbuf i v)
  | _ => exact h.elim

/-- A write to a read-only or a reserved location is ignored (20_memory.md rule R53). -/
theorem writeLocation_of_not_readWrite {l : Location} (h : ¬ ReadWrite l) (v : Byte) (s : State) :
    writeLocation l v s = s := by
  cases l with
  | addr | func | plen | data | rxlenLo | rxlenHi | txbuf i | rxbuf i => exact absurd trivial h
  | _ => rfl

theorem writeLocation_writeLocation_self (l : Location) (v : Byte) (s : State) :
    writeLocation l v (writeLocation l v s) = writeLocation l v s := by
  cases l with
  | rxlenLo | rxlenHi | txbuf i | rxbuf i => simp [writeLocation]
  | _ => rfl

/-- A write inside the register space, other than to CMD, is a write to a location. -/
theorem exists_hostWrite_eq {off : Nat} (h0 : off ≠ 0x000) (h : off < 0x400) :
    ∃ l, locate off = some l ∧ l ≠ .cmd ∧ ∀ v s, hostWrite off v s = .next (writeLocation l v s) := by
  obtain ⟨l, hl⟩ := locate_exists h
  have hc : l ≠ .cmd := fun hc => h0 (locate_eq_cmd_iff.mp (hc ▸ hl))
  exact ⟨l, hl, hc, fun v s => hostWrite_of_located hl hc⟩

/-- The offsets of the read-write locations (20_memory.md rule R53). -/
theorem exists_readWrite_location {off : Nat}
    (h : off ∈ [0x003, 0x004, 0x005, 0x006, 0x00C, 0x00D] ∨ 0x100 ≤ off ∧ off < 0x300) :
    ∃ l, locate off = some l ∧ ReadWrite l := by
  rcases h with hreg | ⟨hlo, hhi⟩
  · simp only [List.mem_cons, List.not_mem_nil, or_false] at hreg
    rcases hreg with rfl | rfl | rfl | rfl | rfl | rfl <;> exact ⟨_, rfl, trivial⟩
  · by_cases htx : off < 0x200
    · obtain ⟨i, rfl⟩ := Nat.exists_eq_add_of_le hlo
      exact ⟨_, locate_txbuf (by omega), trivial⟩
    · obtain ⟨i, rfl⟩ := Nat.exists_eq_add_of_le (Nat.le_of_not_lt htx)
      exact ⟨_, locate_rxbuf (by omega), trivial⟩

/-! ## The obligations -/

/-- Settles O9: each offset has one location, and `readLocation` gives its byte. -/
theorem hostReadFollowsTheMap : Obligations.HostReadFollowsTheMap := by
  intro s
  simp only [← lowByte_eq_ofNat, ← highByte_eq_ofNat]
  refine ⟨rfl, rfl, rfl, rfl, rfl, rfl, rfl, rfl, rfl, rfl, rfl, rfl, rfl, rfl, rfl, ?_, ?_, ?_, ?_, ?_, ?_⟩
  · exact fun off h1 h2 => hostRead_of_ok (locate_reserved_register h1 h2) rfl
  · exact fun i v hi h => hostRead_of_ok (locate_txbuf hi) (rd_of_some h)
  · exact fun i hi h => hostRead_of_error (locate_txbuf hi) (rd_of_none h)
  · exact fun i v hi h => hostRead_of_ok (locate_rxbuf hi) (rd_of_some h)
  · exact fun i hi h => hostRead_of_error (locate_rxbuf hi) (rd_of_none h)
  · exact fun off h1 h2 => hostRead_of_ok (locate_high h1 h2) rfl

/-- Settles O10: each offset has one location, and `writeLocation` changes it. -/
theorem hostWriteFollowsTheMap : Obligations.HostWriteFollowsTheMap := by
  intro s v
  simp only [← toNat_highByte, ← toNat_lowByte, ← joinBytes_eq_ofNat]
  refine ⟨rfl, rfl, rfl, rfl, rfl, ⟨_, rfl⟩, ⟨_, rfl⟩, ?_, ?_, ?_, ?_, ?_⟩
  · intro off hoff
    simp only [List.mem_cons, List.not_mem_nil, or_false] at hoff
    rcases hoff with rfl | rfl | rfl | rfl | rfl | rfl | rfl | rfl <;> rfl
  · exact fun off h1 h2 => hostWrite_of_located (locate_reserved_register h1 h2) (by decide)
  · exact fun i hi => ⟨s.txbuf.write i v, hostWrite_of_located (locate_txbuf hi) nofun, Memory.read_write_self ..,
      fun j hj => Memory.read_write_of_ne _ _ hj⟩
  · exact fun i hi => ⟨s.rxbuf.write i v, false, hostWrite_of_located (locate_rxbuf hi) nofun,
      Memory.read_write_self .., fun j hj => Memory.read_write_of_ne _ _ hj⟩
  · exact fun off h1 h2 => hostWrite_of_located (locate_high h1 h2) (by decide)

/-- Settles O11: a read-write location reads as the byte last written to it. -/
theorem readReturnsTheLastWrite : Obligations.ReadReturnsTheLastWrite := by
  intro s off v hoff
  obtain ⟨l, hl, hrw⟩ := exists_readWrite_location hoff
  have hc : l ≠ .cmd := by
    rintro rfl
    exact hrw
  exact ⟨_, hostWrite_of_located hl hc, hostRead_of_ok hl (readLocation_writeLocation_self hrw v s)⟩

/-- Settles O12: another offset stands for another location, or the write is to a reserved one and changes nothing. -/
theorem writeLeavesOtherOffsetsAlone : Obligations.WriteLeavesOtherOffsetsAlone := by
  intro s off off' v h0 hoff hne
  obtain ⟨l, hl, -, hwrite⟩ := exists_hostWrite_eq h0 hoff
  refine ⟨_, hwrite v s, ?_⟩
  by_cases hoff' : off' < 0x400
  · obtain ⟨l', hl'⟩ := locate_exists hoff'
    apply hostRead_alike_of_readLocation hl'
    by_cases hres : l = .reserved
    · rw [hres]
      rfl
    · exact readLocation_writeLocation_of_ne (locate_ne_of_ne hl hl' hne hres) v s
  · have hout : 0x400 ≤ off' := Nat.le_of_not_lt hoff'
    exact .inr ⟨_, hostRead_outside hout _, hostRead_outside hout _⟩

/-- Settles O13: a read looks at no byte the host holds, a location keeps only the last byte written to it, and CRC_BYTE
from reset changes CRC each of two times. -/
theorem readsAndPlainWritesAreIdempotent : Obligations.ReadsAndPlainWritesAreIdempotent := by
  refine ⟨fun s t off h => ⟨hostRead_next h, hostRead_again h⟩, ?_, ?_⟩
  · intro s off v h0 hoff
    obtain ⟨l, -, -, hwrite⟩ := exists_hostWrite_eq h0 hoff
    exact ⟨_, hwrite v s, (hwrite v _).trans (congrArg _ (writeLocation_writeLocation_self l v s))⟩
  · exact ⟨State.reset, _, _, rfl, rfl, by decide, by decide⟩

end Sys2Proof.Proofs
end

section
/-! PROOFS. What a step does with the next event, and the events that never stop a run (20_memory.md rules R51, R57 and
R61). -/

namespace Sys2Proof.Proofs

open Sys2Proof.Machine

/-! ## The command a byte selects -/

/-- A byte of one row lies in no row that differs from it in a bit both masks look at. -/
theorem codeInRow_eq_false_of_disjoint {mask mask' pattern pattern' b : Byte} (h : codeInRow mask pattern b = true)
    (hdisj : pattern &&& mask' ≠ pattern' &&& mask) : codeInRow mask' pattern' b = false := by
  simp only [codeInRow, beq_iff_eq, beq_eq_false_iff_ne] at h ⊢
  rintro rfl
  apply hdisj
  rw [← h, BitVec.and_assoc, BitVec.and_assoc, BitVec.and_comm mask]

/-- The decoder finds a well-formed command by its byte: the rows of the table do not overlap. -/
theorem decodeByte_encode_of_wellFormed {i : Instr} (h : i.wellFormed = true) : decodeByte (encode i) = i := by
  cases i with
  | nop | crcInit | crcByte | encode | decode | reserved05 => rfl
  | reserved06 c | reserved08 c | reserved10 c | reserved20 c | reserved40 c | reserved80 c =>
    simp only [Instr.wellFormed, Instr.row] at h
    simp [encode, decodeByte, codeInRow_eq_false_of_disjoint h, h]

/-- A command other than ENCODE and DECODE always answers. -/
theorem exec_decodeByte_answers {v : Byte} (he : v ≠ 0x03#8) (hd : v ≠ 0x04#8) (s : State) :
    ∃ t, exec (decodeByte v) s = .next t := by
  have hv : v = 0x00#8 ∨ v = 0x01#8 ∨ v = 0x02#8 ∨ 5 ≤ v.toNat := by bv_omega
  rcases hv with rfl | rfl | rfl | hv
  · exact ⟨_, rfl⟩
  · exact ⟨_, rfl⟩
  · exact ⟨_, rfl⟩
  · exact ⟨_, exec_decodeByte_of_reserved hv s⟩

/-! ## The next event -/

/-- Settles O5: CMD is offset 0x000, and the byte of a command decodes to it. -/
theorem stepRunsTheWrittenCommand : Obligations.StepRunsTheWrittenCommand := by
  refine ⟨fun s v rest hf hp => step_event hf hp, ?_, ?_⟩
  · intro s i rest hf hi hp
    rw [step_event hf hp]
    change exec (decodeByte (encode i)) _ = _
    rw [decodeByte_encode_of_wellFormed hi]
  · intro s w hf
    have hbyte : tableByte 8 w = BitVec.ofNat 8 w := by
      apply BitVec.eq_of_toNat_eq
      simp [tableByte]
    rw [step_event (s := s.withFetchWord 8 w) hf rfl, hbyte]
    rfl

/-- Settles O6: a step is `perform` of the event at the head. -/
theorem stepPerformsTheNextEvent : Obligations.StepPerformsTheNextEvent :=
  ⟨fun _ hf hp => step_idle hf hp, fun _ _ _ hf hp => step_event hf hp, fun _ _ _ _ hf hp => step_event hf hp,
    fun _ _ hf hp => step_event hf hp⟩

/-- Settles O7: the step refuses the access, and the run records what R177 names. -/
theorem wideAccessIsRefused : Obligations.WideAccessIsRefused := by
  intro s off w rest hf hp
  have hstep : step s = .refused (.wideAccess w) := step_event hf hp
  refine ⟨hstep, ?_⟩
  rw [advance, hstep]
  rfl

/-! ## Runs that never stop -/

/-- Only a buffer byte can be without a value. -/
theorem readLocation_answers {l : Location} (h : ∀ i, l ≠ .txbuf i ∧ l ≠ .rxbuf i) (s : State) :
    ∃ v, readLocation l s = .ok v := by
  cases l with
  | txbuf i => exact absurd rfl (h i).1
  | rxbuf i => exact absurd rfl (h i).2
  | _ => exact ⟨_, rfl⟩

theorem hostRead_answers {off : Nat} (h : off < 0x100 ∨ 0x300 ≤ off ∧ off < 0x400) (s : State) :
    ∃ v, ReadAnswers s off v := by
  rcases h with hreg | ⟨h1, h2⟩
  · obtain ⟨v, hv⟩ := readLocation_answers (registerAt_ne_buffer off) s
    exact ⟨v, hostRead_of_ok (locate_register hreg) hv⟩
  · exact ⟨_, hostRead_of_ok (locate_high h1 h2) rfl⟩

theorem hostWrite_answers {off : Nat} {v : Byte} (h : off < 0x400) (hcmd : off = 0x000 → v ≠ 0x03#8 ∧ v ≠ 0x04#8)
    (s : State) : ∃ t, hostWrite off v s = .next t ∧ KeepsPort s t := by
  by_cases h0 : off = 0x000
  · obtain ⟨he, hd⟩ := hcmd h0
    obtain ⟨t, ht⟩ := exec_decodeByte_answers he hd s
    obtain ⟨-, -, hport⟩ := exec_keeps_host_side ht
    exact ⟨t, h0 ▸ ht, hport⟩
  · obtain ⟨l, -, -, hwrite⟩ := exists_hostWrite_eq h0 h
    exact ⟨_, hwrite v s, (writeLocation_keeps l v s).2⟩

/-- An event that reads no buffer byte answers, and leaves the fault record and the events to come alone. -/
theorem perform_answers {e : BusEvent} (h : ReadsNoBuffer e) (s : State) :
    ∃ t, perform e s = .next t ∧ t.fault = s.fault ∧ t.pending = s.pending := by
  cases e with
  | read off =>
    obtain ⟨v, hv⟩ := hostRead_answers h s
    exact ⟨_, hv, rfl, rfl⟩
  | write off v =>
    obtain ⟨hoff, hcmd⟩ := h
    obtain ⟨t, ht, hfault, hpending, -⟩ := hostWrite_answers hoff hcmd s
    exact ⟨t, ht, hfault, hpending⟩
  | wide off w => exact h.elim
  | reset => exact ⟨_, rfl, rfl, rfl⟩

/-- Settles O16, by induction on the number of steps: each event answers and leaves the later ones to come. -/
theorem runsWithoutBufferReadsNeverStop : Obligations.RunsWithoutBufferReadsNeverStop := by
  intro k
  induction k with
  | zero => exact fun _ _ _ => trivial
  | succ k ih =>
    intro s hf hev
    cases hp : s.pending with
    | nil => exact ⟨s, step_idle hf hp, ih s hf hev⟩
    | cons e rest =>
      obtain ⟨he, hrest⟩ := List.forall_mem_cons.mp (hp ▸ hev)
      obtain ⟨t, ht, hfault, hpending⟩ := perform_answers he { s with pending := rest }
      exact ⟨t, (step_event hf hp).trans ht, ih t (hfault.trans hf) (hpending ▸ hrest)⟩

end Sys2Proof.Proofs
end

section
/-! PROOFS. The encoding of the commands: every byte is the byte of one command, in one row of the opcode table
(30_encoding.md rules R70 to R72). -/

namespace Sys2Proof.Proofs

open Sys2Proof.Machine

/-! ## Rows of the opcode table -/

/-- Masking the low `k` bits of a byte rounds it down to a multiple of `2 ^ k`. -/
theorem toNat_and_allOnes_shiftLeft (b : Byte) (k : Nat) :
    (b &&& BitVec.allOnes 8 <<< k).toNat = b.toNat / 2 ^ k * 2 ^ k := by
  have hfit : b.toNat / 2 ^ k * 2 ^ k < 2 ^ 8 := (Nat.div_mul_le_self _ _).trans_lt b.isLt
  rw [← BitVec.shiftLeft_ushiftRight, BitVec.toNat_shiftLeft, BitVec.toNat_ushiftRight, Nat.shiftRight_eq_div_pow,
    Nat.shiftLeft_eq, Nat.mod_eq_of_lt hfit]

/-- A row whose mask drops the low `k` bits holds the `2 ^ k` codes from its pattern on. -/
theorem codeInRow_of_range (k : Nat) {mask pattern b : Byte} (hmask : mask = BitVec.allOnes 8 <<< k)
    (halign : 2 ^ k ∣ pattern.toNat) (hlo : pattern.toNat ≤ b.toNat) (hhi : b.toNat < pattern.toNat + 2 ^ k) :
    codeInRow mask pattern b = true := by
  obtain ⟨q, hq⟩ := halign
  have hdiv : b.toNat / 2 ^ k = q := by
    apply Nat.div_eq_of_lt_le
    · rwa [Nat.mul_comm, ← hq]
    · rwa [Nat.mul_comm, Nat.mul_succ, ← hq]
  rw [codeInRow, beq_iff_eq, ← BitVec.toNat_inj, hmask, toNat_and_allOnes_shiftLeft, hdiv, hq, Nat.mul_comm]

/-- The rows of the table leave no code out, from the last row down. -/
theorem exists_wellFormed_encode_eq (b : Byte) : ∃ j : Instr, j.wellFormed = true ∧ encode j = b := by
  by_cases h80 : 0x80 ≤ b.toNat
  · exact ⟨.reserved80 b, codeInRow_of_range 7 rfl ⟨1, rfl⟩ h80 b.isLt, rfl⟩
  by_cases h40 : 0x40 ≤ b.toNat
  · exact ⟨.reserved40 b, codeInRow_of_range 6 rfl ⟨1, rfl⟩ h40 (not_le.mp h80), rfl⟩
  by_cases h20 : 0x20 ≤ b.toNat
  · exact ⟨.reserved20 b, codeInRow_of_range 5 rfl ⟨1, rfl⟩ h20 (not_le.mp h40), rfl⟩
  by_cases h10 : 0x10 ≤ b.toNat
  · exact ⟨.reserved10 b, codeInRow_of_range 4 rfl ⟨1, rfl⟩ h10 (not_le.mp h20), rfl⟩
  by_cases h08 : 0x08 ≤ b.toNat
  · exact ⟨.reserved08 b, codeInRow_of_range 3 rfl ⟨1, rfl⟩ h08 (not_le.mp h10), rfl⟩
  by_cases h06 : 0x06 ≤ b.toNat
  · exact ⟨.reserved06 b, codeInRow_of_range 1 rfl ⟨3, rfl⟩ h06 (not_le.mp h08), rfl⟩
  have hb : b = 0x00#8 ∨ b = 0x01#8 ∨ b = 0x02#8 ∨ b = 0x03#8 ∨ b = 0x04#8 ∨ b = 0x05#8 := by bv_omega
  rcases hb with rfl | rfl | rfl | rfl | rfl | rfl
  · exact ⟨.nop, rfl, rfl⟩
  · exact ⟨.crcInit, rfl, rfl⟩
  · exact ⟨.crcByte, rfl, rfl⟩
  · exact ⟨.encode, rfl, rfl⟩
  · exact ⟨.decode, rfl, rfl⟩
  · exact ⟨.reserved05, rfl, rfl⟩

/-- The byte of a well-formed command lies in the command's row. -/
theorem encode_in_row {i : Instr} (h : i.wellFormed = true) : codeInRow i.row.1 i.row.2 (encode i) = true := by
  cases i with
  | nop => exact Laws.EncodesInItsRow.nop h
  | crcInit => exact Laws.EncodesInItsRow.crcInit h
  | crcByte => exact Laws.EncodesInItsRow.crcByte h
  | encode => exact Laws.EncodesInItsRow.encode h
  | decode => exact Laws.EncodesInItsRow.decode h
  | reserved05 => exact Laws.EncodesInItsRow.reserved05 h
  | reserved06 c => exact Laws.EncodesInItsRow.reserved06 c h
  | reserved08 c => exact Laws.EncodesInItsRow.reserved08 c h
  | reserved10 c => exact Laws.EncodesInItsRow.reserved10 c h
  | reserved20 c => exact Laws.EncodesInItsRow.reserved20 c h
  | reserved40 c => exact Laws.EncodesInItsRow.reserved40 c h
  | reserved80 c => exact Laws.EncodesInItsRow.reserved80 c h

/-- A byte in the row of a command is the byte of a well-formed command of that row: the command itself, or the one that
carries the byte as its code. -/
theorem exists_wellFormed_of_codeInRow {b : Byte} {i : Instr} (h : codeInRow i.row.1 i.row.2 b = true) :
    ∃ j : Instr, j.row = i.row ∧ j.wellFormed = true ∧ encode j = b := by
  cases i with
  | nop | crcInit | crcByte | encode | decode | reserved05 => exact ⟨_, rfl, rfl, (codeInRow_whole_byte.mp h).symm⟩
  | reserved06 _ => exact ⟨.reserved06 b, rfl, h, rfl⟩
  | reserved08 _ => exact ⟨.reserved08 b, rfl, h, rfl⟩
  | reserved10 _ => exact ⟨.reserved10 b, rfl, h, rfl⟩
  | reserved20 _ => exact ⟨.reserved20 b, rfl, h, rfl⟩
  | reserved40 _ => exact ⟨.reserved40 b, rfl, h, rfl⟩
  | reserved80 _ => exact ⟨.reserved80 b, rfl, h, rfl⟩

/-! ## The obligations -/

/-- Settles O2: the decoder tries the rows in turn, and no row before a command's own holds its byte. -/
theorem decodeOfEncodeIsTheCommand : Obligations.DecodeOfEncodeIsTheCommand :=
  fun _ h => decodeByte_encode_of_wellFormed h

/-- Settles O1, by running the decoder on the listed bytes. -/
theorem commandBytesDecodeAsTabled : Obligations.CommandBytesDecodeAsTabled := by
  unfold Obligations.CommandBytesDecodeAsTabled
  decide

/-- Settles O3: every byte is the byte of some well-formed command, and the decoder finds that command. -/
theorem encodeOfDecodeIsTheByte : Obligations.EncodeOfDecodeIsTheByte := by
  intro b
  obtain ⟨j, hj, rfl⟩ := exists_wellFormed_encode_eq b
  rw [decodeByte_encode_of_wellFormed hj]
  exact ⟨hj, rfl⟩

/-- Settles O4: a byte in a row is the byte of a command of that row, which it decodes to. -/
theorem everyByteLiesInOneRow : Obligations.EveryByteLiesInOneRow := by
  intro b i
  constructor
  · intro h
    obtain ⟨j, hrow, hj, rfl⟩ := exists_wellFormed_of_codeInRow h
    rw [decodeByte_encode_of_wellFormed hj, hrow]
  · intro hrow
    obtain ⟨hwf, hbyte⟩ := encodeOfDecodeIsTheByte b
    have hin := encode_in_row hwf
    rwa [hbyte, ← hrow] at hin

/-- Settles O30: CMD is offset 0x000, and all reserved codes have one meaning. -/
theorem everyReservedCodeFinishesInvalid : Obligations.EveryReservedCodeFinishesInvalid := by
  intro s v h
  rw [hostWrite_cmd, exec_decodeByte_of_reserved h]
  rfl

end Sys2Proof.Proofs
end

section
/-! PROOFS. What ENCODE reads, and which frames DECODE accepts (41_frame_codec.md rules R130 to R134 and R152). -/

namespace Sys2Proof.Proofs

open Sys2Proof.Machine

/-! ## ENCODE -/

theorem encodeError_congr {s u : State} (haddr : u.addr = s.addr) (hfunc : u.func = s.func) (hplen : u.plen = s.plen) :
    encodeError u = encodeError s := by
  simp only [encodeError, haddr, hfunc, hplen]

/-- The host's duties before ENCODE speak of ADDR, FUNC, PLEN and the payload alone. -/
theorem encodeReady_congr {s u : State} {p : List Byte} (haddr : u.addr = s.addr) (hfunc : u.func = s.func)
    (hplen : u.plen = s.plen) (hreads : ∀ k, k < s.plen.toNat → u.txbuf.read (2 + k) = s.txbuf.read (2 + k))
    (h : EncodeReady s p) : EncodeReady u p := by
  obtain ⟨hargs, hlen, hholds⟩ := h
  refine ⟨?_, hplen ▸ hlen, fun k hk => (hreads k (hlen ▸ hk)).trans (hholds k hk)⟩
  simpa only [EncodeArguments, haddr, hfunc, hplen] using hargs

/-- TXLEN after ENCODE is the length of the frame (41_frame_codec.md rule R133). -/
theorem encodeBuild_txlen_eq_length {s : State} {p : List Byte} (h : EncodeReady s p) :
    (encodeBuild p s).txlen.toNat = (frameOf s.addr s.func p).length := by
  obtain ⟨⟨-, -, -, hplen⟩, hlen, -⟩ := h
  rw [length_frameOf, encodeBuild_txlen, BitVec.toNat_ofNat]
  omega

/-- Two buffers that hold the same run of bytes read the same there. -/
theorem read_eq_of_holds {m m' : Memory} {bs : List Byte} (h : m.Holds 0 bs) (h' : m'.Holds 0 bs) {k : Nat}
    (hk : k < bs.length) : m'.read k = m.read k := by
  rw [← Nat.zero_add k, h' k hk, h k hk]

/-- Settles O35: the checks read ADDR, FUNC and PLEN, and both states are left with the frame of the same payload. -/
theorem encodeReadsOnlyItsOperands : Obligations.EncodeReadsOnlyItsOperands := by
  intro s u t haddr hfunc hplen hreads hx
  rcases execEncode_next hx with ⟨r, he, rfl⟩ | ⟨p, hp, rfl⟩
  · have heu : encodeError u = some r := (encodeError_congr haddr hfunc hplen).trans he
    exact ⟨_, execEncode_of_error heu, rfl, rfl, rfl, fun h => absurd h (by simp)⟩
  · have hpu : EncodeReady u p := encodeReady_congr haddr hfunc hplen hreads hp
    have hframe := encodeBuild_holds_frame hp
    have hframeu := encodeBuild_holds_frame hpu
    rw [haddr, hfunc] at hframeu
    refine ⟨_, execEncode_of_ready hpu, rfl, rfl, ?_, fun _ => ⟨?_, fun i hi => ?_⟩⟩
    · rw [encodeBuild_txlen, encodeBuild_txlen, hplen]
    · rw [encodeBuild_crc, encodeBuild_crc, haddr, hfunc]
    · exact read_eq_of_holds hframe hframeu (encodeBuild_txlen_eq_length hp ▸ hi)

/-! ## DECODE -/

/-- Settles O44: DECODE examines the bytes it has read, and answers SUCCESS for a well-formed frame and for no other. -/
theorem decodeAcceptsExactlyTheValidFrames : Obligations.DecodeAcceptsExactlyTheValidFrames := by
  intro s r hr
  refine ⟨_, execDecode_of_ready hr, ?_, ?_⟩
  · intro hstatus
    rcases decodeFrame_cases hr with hframe | ⟨hne, -, -⟩
    · exact hframe
    · exact absurd hstatus hne
  · rintro ⟨p, rfl, hp⟩
    obtain ⟨hstatus, -⟩ := decodeFrame_of_wellFormed hr hp
    exact hstatus

end Sys2Proof.Proofs
end

section
/-! PROOFS. The CRC function: the bit step as a linear injective map, and what that gives of the byte step and of a whole
sequence (40_crc.md rules R100 to R105). -/

namespace Sys2Proof.Proofs

open Sys2Proof.Machine

/-! ## The bit step -/

theorem getLsbD_crcBit (c : Half) (i : Nat) :
    (crcBit c).getLsbD i = Bool.xor (c.getLsbD (i + 1)) (c.getLsbD 0 && (0xA001#16).getLsbD i) := by
  rw [crcBit, Nat.add_comm i 1]
  cases h : c.getLsbD 0 <;> simp

/-- Settles O19: the shift moves bit `i + 1` down to bit `i`, and bit 0 decides on the XOR. -/
theorem crcBitBitByBit : Obligations.CrcBitBitByBit :=
  fun c i _ => getLsbD_crcBit c i

theorem crcBit_xor (c d : Half) : crcBit (c ^^^ d) = crcBit c ^^^ crcBit d := by
  apply BitVec.eq_of_getLsbD_eq
  intro i _
  simp only [getLsbD_crcBit, BitVec.getLsbD_xor, Bool.and_xor_distrib_right, Bool.xor_assoc, Bool.xor_left_comm]

/-- Bit 15 of the result is bit 0 of the argument, and then every other bit can be read back. -/
theorem crcBit_injective : Function.Injective crcBit := by
  intro c d h
  have hbit (i : Nat) : Bool.xor (c.getLsbD (i + 1)) (c.getLsbD 0 && (0xA001#16).getLsbD i) =
      Bool.xor (d.getLsbD (i + 1)) (d.getLsbD 0 && (0xA001#16).getLsbD i) := by
    rw [← getLsbD_crcBit, ← getLsbD_crcBit, h]
  have h0 : c.getLsbD 0 = d.getLsbD 0 := by simpa using hbit 15
  apply BitVec.eq_of_getLsbD_eq
  intro i _
  cases i with
  | zero => exact h0
  | succ i => simpa only [h0, Bool.xor_left_inj] using hbit i

theorem crcBits_xor (n : Nat) (c d : Half) : crcBits n (c ^^^ d) = crcBits n c ^^^ crcBits n d := by
  induction n generalizing c d with
  | zero => rfl
  | succ n ih => rw [crcBits, crcBit_xor, ih, crcBits, crcBits]

theorem crcBits_injective (n : Nat) : Function.Injective (crcBits n) := by
  induction n with
  | zero => exact fun _ _ h => h
  | succ n ih => exact ih.comp crcBit_injective

/-! ## The byte step -/

/-- A byte XORed into the low byte leaves the high byte alone. -/
theorem joinBytes_highByte_xor_lowByte (c : Half) (b : Byte) :
    joinBytes (highByte c) (lowByte c ^^^ b) = c ^^^ b.setWidth 16 := by
  rw [joinBytes_eq_iff]
  constructor <;> apply BitVec.eq_of_getLsbD_eq <;> intro i hi
  · simp [highByte, hi]
  · simp [lowByte, hi, Nat.lt_trans hi]

/-- Settles O20: `crcBits 8` is eight bit steps from the value with the byte in it. -/
theorem crcByteEntersTheLowByte : Obligations.CrcByteEntersTheLowByte := by
  intro c b
  rw [joinBytes_highByte_xor_lowByte]
  rfl

/-- Settles O24: the bit steps are linear, and the low byte of the accumulator fed back leaves a shift alone. -/
theorem tableDrivenCrcAgrees : Obligations.TableDrivenCrcAgrees := by
  intro c b
  have hsplit : c ^^^ b.setWidth 16 =
      (c ^^^ (lowByte c).setWidth 16) ^^^ (lowByte c ^^^ b).setWidth 16 := by
    rw [BitVec.setWidth_xor, BitVec.xor_assoc, ← BitVec.xor_assoc (BitVec.setWidth 16 (lowByte c)), BitVec.xor_self,
      BitVec.zero_xor]
  rw [crcByte_eq, hsplit, crcBits_xor, ← crcByte_eq, crcByte_lowByte]

theorem crcByte_injective_accumulator (b : Byte) : Function.Injective (fun c => crcByte c b) :=
  fun _ _ h => BitVec.xor_left_inj _ |>.mp (crcBits_injective 8 h)

theorem crcByte_injective_byte (c : Half) : Function.Injective (crcByte c) := by
  intro a b h
  have hwide : a.setWidth 16 = b.setWidth 16 := BitVec.xor_right_inj _ |>.mp (crcBits_injective 8 h)
  simpa using congrArg (BitVec.setWidth 8) hwide

theorem crcByte_zero_zero : crcByte 0x0000#16 0x00#8 = 0x0000#16 := by decide

/-! ## Sequences of bytes -/

/-- Settles O21: `crc16` is a fold from the seed. -/
theorem crcSixteenStepsByteByByte : Obligations.CrcSixteenStepsByteByByte :=
  ⟨crc16_nil, crc16_concat⟩

/-- Settles O22, by induction on the number of zero bytes. -/
theorem zeroAccumulatorStaysZero : Obligations.ZeroAccumulatorStaysZero := by
  refine ⟨crc16_nil, crcByte_zero_zero, fun n => ?_⟩
  induction n with
  | zero => rfl
  | succ n ih => rw [List.replicate_succ, List.foldl_cons, crcByte_zero_zero, ih]

/-- Settles O23: the first CRC byte leaves the high byte of the accumulator, and the second one clears it. -/
theorem crcResidueIsZero : Obligations.CrcResidueIsZero :=
  crc16_append_own_crc

/-- Different accumulators stay different under the same bytes. -/
theorem foldl_crcByte_injective (bs : List Byte) : Function.Injective (fun c => bs.foldl crcByte c) := by
  induction bs with
  | nil => exact fun _ _ h => h
  | cons b bs ih => exact ih.comp (crcByte_injective_accumulator b)

/-- Settles O25: the changed byte gives another accumulator, and the bytes after it keep it apart. -/
theorem crcDetectsOneChangedByte : Obligations.CrcDetectsOneChangedByte := by
  intro u v a b hab h
  rw [crc16_append, crc16_append] at h
  exact hab (crcByte_injective_byte _ (foldl_crcByte_injective v h))

theorem crc16_set_ne {r : List Byte} {k : Nat} {b : Byte} (hk : k < r.length) (hb : r[k] ≠ b) :
    crc16 (r.set k b) ≠ crc16 r := by
  have hr : r.take k ++ r[k] :: r.drop (k + 1) = r := by
    rw [← List.drop_eq_getElem_cons hk, List.take_append_drop]
  have h := crcDetectsOneChangedByte (r.take k) (r.drop (k + 1)) r[k] b hb
  rw [List.set_eq_take_append_cons_drop, if_pos hk]
  exact (hr ▸ h).symm

end Sys2Proof.Proofs
end

section
/-! PROOFS. A received frame with one changed byte (41_frame_codec.md rule R143). -/

namespace Sys2Proof.Proofs

open Sys2Proof.Machine

/-- A frame that passes the check of its CRC has residue zero (40_crc.md rule R105). -/
theorem crc16_eq_zero_of_receivedCrc {r : List Byte} (h2 : 2 ≤ r.length) (h : receivedCrc r = crc16 (frameBody r)) :
    crc16 r = 0x0000#16 := by
  obtain ⟨body, lo, hi, rfl⟩ := exists_body h2
  rw [receivedCrc_append, frameBody_append, joinBytes_eq_iff] at h
  obtain ⟨rfl, rfl⟩ := h
  exact crc16_append_own_crc body

theorem receivedCrc_append_of_crcMatches {body : List Byte} {lo hi : Byte} (h : CrcMatches body lo hi) :
    receivedCrc (body ++ [lo, hi]) = crc16 (frameBody (body ++ [lo, hi])) := by
  rw [receivedCrc_append, frameBody_append, joinBytes_eq_iff]
  exact (crcMatches_iff.mp h).symm

theorem frameVerdict_of_crc_mismatch {r : List Byte} (h : receivedCrc r ≠ crc16 (frameBody r)) (addr func : Byte) :
    frameVerdict addr func r = ⟨.checksumMismatch, .none, 0⟩ :=
  if_pos h

/-- Changing any one byte of a frame that passes the check of its CRC makes it fail the check. -/
theorem receivedCrc_set_ne {r : List Byte} {k : Nat} {b : Byte} (h2 : 2 ≤ r.length)
    (h : receivedCrc r = crc16 (frameBody r)) (hk : k < r.length) (hb : r[k] ≠ b) :
    receivedCrc (r.set k b) ≠ crc16 (frameBody (r.set k b)) := by
  intro h'
  apply crc16_set_ne hk hb
  rw [crc16_eq_zero_of_receivedCrc h2 h, crc16_eq_zero_of_receivedCrc (by rwa [List.length_set]) h']

theorem holds_set_of_write {m : Memory} {bs : List Byte} (h : m.Holds 0 bs) (k : Nat) (b : Byte) :
    (m.write k b).Holds 0 (bs.set k b) := by
  intro j hj
  rw [List.length_set] at hj
  rw [Nat.zero_add, Memory.read_write, List.getElem?_set]
  by_cases hjk : j = k
  · subst hjk
    simp [hj]
  · simpa [hjk, Ne.symm hjk] using h j hj

/-- A write to one received byte leaves the host's duties before DECODE met, for the changed frame. -/
theorem decodeReady_write_rxbuf {s : State} {r : List Byte} (h : DecodeReady s r) (k : Nat) (b : Byte) :
    DecodeReady { s with rxbuf := s.rxbuf.write k b } (r.set k b) := by
  obtain ⟨hargs, hlen, hholds⟩ := h
  exact ⟨hargs, (List.length_set ..).trans hlen, holds_set_of_write hholds k b⟩

/-- Settles O49: the changed frame is the one DECODE reads, and its CRC does not match. -/
theorem anyChangedByteIsCaught : Obligations.AnyChangedByteIsCaught := by
  intro s body lo hi b k hr hcrc hk hb
  have hchanged := decodeReady_write_rxbuf hr k b
  obtain ⟨-, hlen, hholds⟩ := hr
  have hk' : k < (body ++ [lo, hi]).length := hlen ▸ hk
  have hread : s.rxbuf.read k = some (body ++ [lo, hi])[k] := by
    simpa only [Nat.zero_add, List.getElem?_eq_getElem hk'] using hholds k hk'
  have hne : (body ++ [lo, hi])[k] ≠ b := fun h => hb (h ▸ hread)
  have hmismatch := receivedCrc_set_ne (by simp) (receivedCrc_append_of_crcMatches hcrc) hk' hne
  refine ⟨_, execDecode_of_ready hchanged, ?_, ?_⟩
  · rw [decodeFrame_status, frameVerdict_of_crc_mismatch hmismatch]
    rfl
  · rw [decodeFrame_reason, frameVerdict_of_crc_mismatch hmismatch]
    rfl

end Sys2Proof.Proofs
end

section
/-! PROOFS. The CRC commands, one by one and in sequence (40_crc.md rules R110 to R112). -/

namespace Sys2Proof.Proofs

open Sys2Proof.Machine

/-- Settles O27: the command writes the constant seed, from any state. -/
theorem crcInitSetsTheSeed : Obligations.CrcInitSetsTheSeed :=
  fun s => ⟨exec_crcInit s, exec_crcInit _⟩

/-- Settles O28: the command is one byte step on CRC with DATA. -/
theorem crcByteStepsTheAccumulator : Obligations.CrcByteStepsTheAccumulator :=
  exec_crcByte

theorem perform_write_data (b : Byte) (s : State) : perform (wrAt 0x006 b) s = .next { s with data := b } := rfl

theorem perform_cmdEvent {i : Instr} (h : i.wellFormed = true) (s : State) : perform (cmdEvent i) s = exec i s := by
  change exec (decodeByte (encode i)) s = exec i s
  rw [decodeByte_encode_of_wellFormed h]

theorem advance_event {s t : State} {e : BusEvent} {rest : List BusEvent} (hf : s.fault = none)
    (hp : s.pending = e :: rest) (h : perform e { s with pending := rest } = .next t) : advance s = t :=
  advance_of_next ((step_event hf hp).trans h)

theorem advance_cmdEvent {s t : State} {i : Instr} {rest : List BusEvent} (hi : i.wellFormed = true)
    (hf : s.fault = none) (hp : s.pending = cmdEvent i :: rest) (h : exec i { s with pending := rest } = .next t) :
    advance s = t :=
  advance_event hf hp ((perform_cmdEvent hi _).trans h)

/-- Two steps feed one byte: the write of DATA and CRC_BYTE. -/
theorem advance_advance_crcbytes_cons {s : State} {b : Byte} {rest : List BusEvent} (hf : s.fault = none)
    (hp : s.pending = wrAt 0x006 b :: cmdEvent .crcByte :: rest) :
    advance (advance s) = { s with crc := crcByte s.crc b, data := b, pending := rest } := by
  rw [advance_event hf hp (perform_write_data b _)]
  exact advance_cmdEvent rfl hf rfl (exec_crcByte _)

/-- `crcbytes` goes on from whatever CRC holds (40_crc.md rule R111). -/
theorem iterate_advance_crcbytes {s : State} {bs : List Byte} {rest : List BusEvent} (hf : s.fault = none)
    (hp : s.pending = crcbytes bs ++ rest) :
    advance^[2 * bs.length] s = { s with crc := bs.foldl crcByte s.crc, data := bs.getLastD s.data, pending := rest } := by
  induction bs generalizing s with
  | nil =>
    obtain rfl : s.pending = rest := hp
    rfl
  | cons b bs ih =>
    have hbyte : advance (advance s) = { s with crc := crcByte s.crc b, data := b, pending := crcbytes bs ++ rest } :=
      advance_advance_crcbytes_cons hf hp
    rw [List.length_cons, Nat.mul_succ, Function.iterate_succ_apply, Function.iterate_succ_apply, List.foldl_cons,
      List.getLastD_cons, hbyte]
    exact ih hf rfl

/-- Settles O54: CRC_INIT loads the seed, and each byte then takes its byte step. -/
theorem streamingComputesTheCrc : Obligations.StreamingComputesTheCrc := by
  intro s bs rest hf hp
  have hinit : advance s = { s with crc := 0xFFFF#16, pending := crcbytes bs ++ rest } :=
    advance_cmdEvent rfl hf hp (exec_crcInit _)
  rw [Nat.add_comm, Function.iterate_succ_apply, hinit]
  exact iterate_advance_crcbytes hf rfl

end Sys2Proof.Proofs
end

section
/-! PROOFS. NOP and the reserved codes, and where a command can stop (41_frame_codec.md rules R120, R133, R152 and
R160). -/

namespace Sys2Proof.Proofs

open Sys2Proof.Machine

/-- Settles O26: the command answers the state it is given. -/
theorem nopChangesNothing : Obligations.NopChangesNothing :=
  exec_nop

/-- Settles O29: the seven rows have one meaning, which does not look at the code. -/
theorem reservedRowsFinishInvalid : Obligations.ReservedRowsFinishInvalid :=
  fun s c => ⟨exec_reserved05 s, exec_reserved06 c s, exec_reserved08 c s, exec_reserved10 c s, exec_reserved20 c s,
    exec_reserved40 c s, exec_reserved80 c s⟩

/-- Settles O15: ENCODE and DECODE alone read a buffer, and their reads stop only at an unwritten byte of their run. -/
theorem onlyAnUnwrittenByteStopsACommand : Obligations.OnlyAnUnwrittenByteStopsACommand := by
  intro i s
  cases i with
  | encode =>
    rcases execEncode_cases s with ⟨r, -, hx⟩ | ⟨p, -, hx⟩ | ⟨f, hargs, hf, hx⟩
    · exact .inl ⟨_, hx⟩
    · exact .inl ⟨_, hx⟩
    · obtain ⟨j, rfl, h2, hj, hnone, -⟩ := State.rdRange_eq_error_iff.mp hf
      exact .inr (.inl ⟨rfl, hargs, j, h2, hj, hnone, hx⟩)
  | decode =>
    rcases execDecode_cases s with ⟨o, r, -, hx⟩ | ⟨r, -, hx⟩ | ⟨f, hargs, hf, hx⟩
    · exact .inl ⟨_, hx⟩
    · exact .inl ⟨_, hx⟩
    · obtain ⟨j, rfl, -, hj, hnone, -⟩ := State.rdRange_eq_error_iff.mp hf
      exact .inr (.inr ⟨rfl, hargs, j, Nat.zero_add s.rxlen.toNat ▸ hj, hnone, hx⟩)
  | _ => exact .inl ⟨_, rfl⟩

end Sys2Proof.Proofs
end

section
/-! PROOFS. ENCODE: the frame it builds, its checks in their order, and a second ENCODE (41_frame_codec.md rules R131 to
R134). -/

namespace Sys2Proof.Proofs

open Sys2Proof.Machine

theorem not_isSupportedFunction_iff {f : Byte} : ¬ isSupportedFunction f ↔ f ≠ 0x03#8 ∧ f ≠ 0x05#8 := by
  rw [isSupportedFunction_iff, not_or]

/-! ## The checks -/

theorem encodeError_of_address {s : State} (h : s.addr.toNat < 1 ∨ 127 < s.addr.toNat) :
    encodeError s = some .addressOutOfRange :=
  if_pos h

theorem encodeError_of_function {s : State} (h1 : 1 ≤ s.addr.toNat) (h127 : s.addr.toNat ≤ 127)
    (hf : ¬ isSupportedFunction s.func) : encodeError s = some .functionNotSupported := by
  rw [encodeError, if_neg (by simp only [Config.addrMin, Config.addrMax]; omega), if_pos hf]

theorem encodeError_of_payload {s : State} (h1 : 1 ≤ s.addr.toNat) (h127 : s.addr.toNat ≤ 127)
    (hf : isSupportedFunction s.func) (hp : 252 < s.plen.toNat) : encodeError s = some .payloadTooLong := by
  rw [encodeError, if_neg (by simp only [Config.addrMin, Config.addrMax]; omega), if_neg (not_not.mpr hf), if_pos hp]

/-- Settles O32: the checks stand in the order of rule R131, and the first that fails decides. -/
theorem encodeRejectsBadArguments : Obligations.EncodeRejectsBadArguments := fun _ =>
  ⟨fun ha => execEncode_of_error (encodeError_of_address ha),
    fun h1 h127 h3 h5 =>
      execEncode_of_error (encodeError_of_function h1 h127 (not_isSupportedFunction_iff.mpr ⟨h3, h5⟩)),
    fun h1 h127 hf hp => execEncode_of_error (encodeError_of_payload h1 h127 (isSupportedFunction_iff.mpr hf) hp)⟩

/-! ## The frame -/

/-- The CRC bytes of ENCODE go behind the payload, the low byte first. -/
theorem encodeBuild_read_crc (s : State) (p : List Byte) :
    (encodeBuild p s).txbuf.read (s.plen.toNat + 2) = some (lowByte (crc16 (s.addr :: s.func :: p))) ∧
      (encodeBuild p s).txbuf.read (s.plen.toNat + 3) = some (highByte (crc16 (s.addr :: s.func :: p))) := by
  constructor <;> rw [encodeBuild_read] <;> simp

theorem encodeBuild_read_of_ne (s : State) (p : List Byte) {i : Nat} (h0 : i ≠ 0) (h1 : i ≠ 1)
    (h2 : i ≠ s.plen.toNat + 2) (h3 : i ≠ s.plen.toNat + 3) : (encodeBuild p s).txbuf.read i = s.txbuf.read i := by
  rw [encodeBuild_read, if_neg h3, if_neg h2, if_neg h1, if_neg h0]

/-- Settles O31: TXBUF holds the frame, and the four bytes ENCODE stores are all that it changes there. -/
theorem encodeBuildsTheFrame : Obligations.EncodeBuildsTheFrame := by
  intro s p hp
  have ⟨_, hlen, _⟩ := hp
  have hframe := encodeBuild_holds_frame hp
  have hx := execEncode_of_ready hp
  obtain ⟨hregs, hrxbuf, hport⟩ := exec_keeps_host_side (i := .encode) hx
  obtain ⟨hlo, hhi⟩ := encodeBuild_read_crc s p
  have htxlen : (encodeBuild p s).txlen.toNat = s.plen.toNat + 4 := by
    rw [encodeBuild_txlen_eq_length hp, length_frameOf, hlen]
  exact ⟨_, hx, rfl, rfl, htxlen, rfl, hframe.head, hframe.tail.head, holds_payload_of_frameOf hframe,
    ⟨_, _, hlo, hhi, crcMatches_iff.mpr ⟨rfl, rfl⟩⟩, fun _ => encodeBuild_read_of_ne s p, hregs, rfl,
    sameBytes_of_eq hrxbuf, hport, rfl⟩

/-! ## A second ENCODE -/

theorem wf_encodeBuild_txbuf {s : State} (h : s.txbuf.wf) (p : List Byte) : (encodeBuild p s).txbuf.wf :=
  Memory.wf_write (Memory.wf_write (Memory.wf_write (Memory.wf_write h _ _) _ _) _ _) _ _

/-- ENCODE leaves its own operands as they were. -/
theorem encodeReady_encodeBuild {s : State} {p : List Byte} (h : EncodeReady s p) : EncodeReady (encodeBuild p s) p := by
  have hpayload := holds_payload_of_frameOf (encodeBuild_holds_frame h)
  obtain ⟨hargs, hlen, -⟩ := h
  exact ⟨hargs, hlen, hpayload⟩

/-- A second build stores the bytes that the first one left, at the same four places. -/
theorem encodeBuild_encodeBuild {s : State} (h : s.txbuf.wf) (p : List Byte) :
    encodeBuild p (encodeBuild p s) = encodeBuild p s := by
  have hwf := wf_encodeBuild_txbuf h p
  have hbuf : (encodeBuild p s).txbuf = (encodeBuild p (encodeBuild p s)).txbuf := by
    refine Memory.eq_of_sameBytes hwf (wf_encodeBuild_txbuf hwf p) fun i => ?_
    simp only [encodeBuild_read, encodeBuild_addr, encodeBuild_func, encodeBuild_plen]
    split_ifs <;> rfl
  change { encodeBuild p s with txbuf := (encodeBuild p (encodeBuild p s)).txbuf } = _
  rw [← hbuf]

/-- Settles O34: a rejected ENCODE meets the same failed check again, and a built frame is built again in place. -/
theorem encodeTwiceIsEncodeOnce : Obligations.EncodeTwiceIsEncodeOnce := by
  intro s t hwf hx
  rcases execEncode_next hx with ⟨r, he, rfl⟩ | ⟨p, hp, rfl⟩
  · exact execEncode_of_error ((encodeError_congr rfl rfl rfl).trans he)
  · rw [exec_encode, execEncode_of_ready (encodeReady_encodeBuild hp), encodeBuild_encodeBuild hwf]

end Sys2Proof.Proofs
end

section
/-! PROOFS. DECODE, check by check and step by step (41_frame_codec.md rules R141 to R152), and the round trip with
ENCODE (rule R154). -/

namespace Sys2Proof.Proofs

open Sys2Proof.Machine

/-! ## The checks before RXBUF is read -/

theorem decodeError_of_function {s : State} (h : ¬ isSupportedFunction s.func) :
    decodeError s = some (.invalidArgument, .functionNotSupported) :=
  if_pos h

theorem decodeError_of_long {s : State} (hf : isSupportedFunction s.func) (h : 256 < s.rxlen.toNat) :
    decodeError s = some (.invalidArgument, .receivedTooLong) := by
  rw [decodeError, if_neg (not_not.mpr hf), if_pos h]

theorem decodeError_of_short {s : State} (hf : isSupportedFunction s.func) (h : s.rxlen.toNat < 5) :
    decodeError s = some (.malformed, .tooShort) := by
  rw [decodeError, if_neg (not_not.mpr hf), if_neg (by simp only [Config.maxFrame]; omega), if_pos h]

/-- Settles O37: the checks read FUNC and RXLEN alone, and the first that fails decides. -/
theorem decodeRejectsBeforeReading : Obligations.DecodeRejectsBeforeReading := fun _ =>
  ⟨fun h3 h5 => ⟨_, execDecode_of_error (decodeError_of_function (not_isSupportedFunction_iff.mpr ⟨h3, h5⟩))⟩,
    fun hf hl => ⟨_, execDecode_of_error (decodeError_of_long (isSupportedFunction_iff.mpr hf) hl)⟩,
    fun hf hl => ⟨_, execDecode_of_error (decodeError_of_short (isSupportedFunction_iff.mpr hf) hl)⟩⟩

/-! ## The verdict, step by step -/

theorem receivedCrc_append_eq_iff_crcMatches {body : List Byte} {lo hi : Byte} :
    receivedCrc (body ++ [lo, hi]) = crc16 (frameBody (body ++ [lo, hi])) ↔ CrcMatches body lo hi := by
  rw [receivedCrc_append, frameBody_append, joinBytes_eq_iff, crcMatches_iff, and_comm]

/-- A frame with a valid CRC is `frameOf` of its fields (30_encoding.md rule R73). -/
theorem append_eq_frameOf_of_crcMatches {a f : Byte} {p : List Byte} {lo hi : Byte}
    (h : CrcMatches (a :: f :: p) lo hi) : a :: f :: p ++ [lo, hi] = frameOf a f p := by
  obtain ⟨rfl, rfl⟩ := crcMatches_iff.mp h
  rfl

/-- Past step 2 the outcome is no CHECKSUM_MISMATCH. -/
theorem frameVerdict_tag_ne_of_crc_match {r : List Byte} (h : receivedCrc r = crc16 (frameBody r)) (addr func : Byte) :
    (frameVerdict addr func r).tag ≠ .checksumMismatch := by
  rw [frameVerdict, if_neg (not_not.mpr h)]
  simp only [readHoldingVerdict, writeCoilVerdict]
  split_ifs <;> simp

theorem frameVerdict_of_address {addr : Byte} {r : List Byte} (hcrc : receivedCrc r = crc16 (frameBody r))
    (ha : frameByte r 0 ≠ addr) (func : Byte) : frameVerdict addr func r = ⟨.addressMismatch, .none, 0⟩ := by
  rw [frameVerdict, if_neg (not_not.mpr hcrc), if_pos ha]

theorem frameVerdict_of_function {addr func : Byte} {r : List Byte} (hcrc : receivedCrc r = crc16 (frameBody r))
    (ha : frameByte r 0 = addr) (hf : frameByte r 1 ≠ func) :
    frameVerdict addr func r = ⟨.malformed, .unexpectedFunction, 0⟩ := by
  rw [frameVerdict, if_neg (not_not.mpr hcrc), if_neg (not_not.mpr ha), if_pos hf]

theorem wellFormedResponse_read_iff {n : Byte} {rest : List Byte} :
    WellFormedResponse 0x03#8 (n :: rest) ↔ rest.length = n.toNat ∧ n.toNat % 2 = 0 := by
  simp [WellFormedResponse]

theorem wellFormedResponse_coil_iff {p : List Byte} : WellFormedResponse 0x05#8 p ↔ p.length = 4 := by
  simp [WellFormedResponse]

/-- Steps 5 and 6 report the length of every payload that is not well-formed for the response. -/
theorem frameVerdict_of_not_wellFormed {f : Byte} {p : List Byte} (a : Byte) (hf : f = 0x03#8 ∨ f = 0x05#8)
    (hne : p ≠ []) (h : ¬ WellFormedResponse f p) :
    frameVerdict a f (frameOf a f p) = ⟨.malformed, .lengthMismatch, 0⟩ := by
  have hlen := length_frameOf a f p
  rw [frameVerdict_frameOf]
  rcases hf with rfl | rfl
  · obtain ⟨n, rest, rfl⟩ := List.exists_cons_of_ne_nil hne
    rw [wellFormedResponse_read_iff] at h
    have h2 : frameByte (frameOf a 0x03#8 (n :: rest)) 2 = n := rfl
    rw [List.length_cons] at hlen
    simp only [if_true, readHoldingVerdict, h2]
    split_ifs
    · rfl
    · rfl
    · omega
  · rw [wellFormedResponse_coil_iff] at h
    have h8 : (frameOf a 0x05#8 p).length ≠ 8 := by omega
    exact if_pos h8

/-! ## What DECODE leaves for a frame it has read -/

/-- DECODE of a received frame: CRC takes the recomputed value, and the verdict gives STATUS, REASON and NREG. -/
theorem execDecode_of_verdict {s : State} {body : List Byte} {lo hi : Byte} {v : Verdict}
    (hr : DecodeReady s (body ++ [lo, hi])) (hv : frameVerdict s.addr s.func (body ++ [lo, hi]) = v) :
    exec .decode s = .next { s with
      crc := crc16 body, nreg := BitVec.ofNat 8 v.nreg, status := v.tag.code, reason := v.reason.code,
      decoded := v.tag == .success } := by
  subst hv
  rw [exec_decode, execDecode_of_ready hr, decodeFrame, frameBody_append]
  rfl

theorem execDecode_of_crc_mismatch {s : State} {body : List Byte} {lo hi : Byte}
    (hr : DecodeReady s (body ++ [lo, hi])) (h : ¬ CrcMatches body lo hi) :
    exec .decode s = .next { s with
      crc := crc16 body, nreg := 0x00#8, status := 0x4#4, reason := 0x00#8, decoded := false } :=
  execDecode_of_verdict hr (frameVerdict_of_crc_mismatch (mt receivedCrc_append_eq_iff_crcMatches.mp h) _ _)

theorem code_eq_checksumMismatch_iff {o : OutcomeTag} : o.code = 0x4#4 ↔ o = .checksumMismatch := by
  cases o <;> decide

/-- Settles O38: step 2 comes before all that the verdict looks at. -/
theorem decodeReportsChecksumMismatch : Obligations.DecodeReportsChecksumMismatch := by
  intro s body lo hi hr
  refine ⟨fun h => ⟨_, execDecode_of_crc_mismatch hr h⟩, fun h => ⟨_, execDecode_of_verdict hr rfl, rfl, ?_⟩⟩
  intro hstatus
  exact frameVerdict_tag_ne_of_crc_match (receivedCrc_append_of_crcMatches h) _ _
    (code_eq_checksumMismatch_iff.mp hstatus)

/-- Settles O39: step 3 looks at the first byte, after step 2. -/
theorem decodeReportsAddressMismatch : Obligations.DecodeReportsAddressMismatch := by
  intro s a rest lo hi hr ha
  refine ⟨fun h => ?_, fun h => ⟨_, execDecode_of_crc_mismatch hr h⟩⟩
  have hv := frameVerdict_of_address (receivedCrc_append_of_crcMatches h) ha s.func
  exact ⟨_, execDecode_of_verdict hr hv⟩

/-- Settles O40: step 4 looks at the second byte, after steps 2 and 3. -/
theorem decodeReportsUnexpectedFunction : Obligations.DecodeReportsUnexpectedFunction := by
  intro s f rest lo hi hr h hf
  have hv := frameVerdict_of_function (receivedCrc_append_of_crcMatches h) rfl hf
  exact ⟨_, execDecode_of_verdict hr hv⟩

theorem execDecode_of_wellFormed {s : State} {p : List Byte} (hr : DecodeReady s (frameOf s.addr s.func p))
    (hp : WellFormedResponse s.func p) :
    exec .decode s = .next { s with
      crc := crc16 (s.addr :: s.func :: p), nreg := BitVec.ofNat 8 (payloadRegisters s.func p), status := 0x1#4,
      reason := 0x00#8, decoded := true } :=
  execDecode_of_verdict hr (frameVerdict_of_wellFormed s.addr hp)

theorem execDecode_of_not_wellFormed {s : State} {p : List Byte} (hr : DecodeReady s (frameOf s.addr s.func p))
    (hp : ¬ WellFormedResponse s.func p) :
    exec .decode s = .next { s with
      crc := crc16 (s.addr :: s.func :: p), nreg := 0x00#8, status := 0x3#4, reason := 0x03#8, decoded := false } := by
  have ⟨⟨hf, h5, _⟩, hlen, _⟩ := hr
  have hne : p ≠ [] := by
    rintro rfl
    rw [length_frameOf, List.length_nil] at hlen
    omega
  exact execDecode_of_verdict hr (frameVerdict_of_not_wellFormed s.addr hf hne hp)

/-- Settles O41: the two conditions of step 5 say that the payload is well-formed for the response. -/
theorem decodeReadHoldingResponse : Obligations.DecodeReadHoldingResponse := by
  intro s n rest lo hi hr hcrc hfunc
  rw [append_eq_frameOf_of_crcMatches hcrc] at hr
  have ⟨_, hlen, _⟩ := hr
  rw [length_frameOf, List.length_cons] at hlen
  have hwf : WellFormedResponse s.func (n :: rest) ↔ s.rxlen.toNat = n.toNat + 5 ∧ n.toNat % 2 = 0 := by
    rw [hfunc, wellFormedResponse_read_iff, ← hlen, Nat.add_assoc, Nat.add_right_cancel_iff]
  constructor
  · intro h
    exact ⟨_, execDecode_of_not_wellFormed hr (by rw [hwf]; omega)⟩
  · intro hcount heven
    have hregs : payloadRegisters s.func (n :: rest) = n.toNat / 2 := by rw [hfunc, payloadRegisters_read]
    exact ⟨true, hregs ▸ execDecode_of_wellFormed hr (hwf.mpr ⟨hcount, heven⟩)⟩

/-- Settles O42: of the payload, step 6 looks at its length alone. -/
theorem decodeWriteCoilResponse : Obligations.DecodeWriteCoilResponse := by
  intro s rest lo hi hr hcrc hfunc
  rw [append_eq_frameOf_of_crcMatches hcrc] at hr
  have ⟨_, hlen, _⟩ := hr
  rw [length_frameOf] at hlen
  have hwf : WellFormedResponse s.func rest ↔ s.rxlen.toNat = 8 := by
    rw [hfunc, wellFormedResponse_coil_iff]
    omega
  constructor
  · intro h
    exact ⟨_, execDecode_of_not_wellFormed hr (mt hwf.mp h)⟩
  · intro h
    have hregs : payloadRegisters s.func rest = 0 := payloadRegisters_of_ne_read (by rw [hfunc]; decide)
    exact ⟨true, hregs ▸ execDecode_of_wellFormed hr (hwf.mpr h)⟩

/-! ## A changed CRC byte -/

theorem set_crc_low (body : List Byte) (lo hi b : Byte) :
    (body ++ [lo, hi]).set body.length b = body ++ [b, hi] := by
  simp

theorem set_crc_high (body : List Byte) (lo hi b : Byte) :
    (body ++ [lo, hi]).set (body.length + 1) b = body ++ [lo, b] := by
  simp

/-- Settles O48: one pair of CRC bytes alone matches the body, which the change leaves as it is. -/
theorem changedCrcByteIsCaught : Obligations.ChangedCrcByteIsCaught := by
  intro s body lo hi b hr hcrc
  have ⟨_, hlen, _⟩ := hr
  have hlast : s.rxlen.toNat = body.length + 2 := by rw [← hlen, List.length_append]; rfl
  obtain ⟨hlo, hhi⟩ := crcMatches_iff.mp hcrc
  constructor
  · intro hb
    have hno : ¬ CrcMatches body b hi := fun h => hb ((crcMatches_iff.mp h).1.trans hlo.symm)
    have hchanged := decodeReady_write_rxbuf hr body.length b
    rw [set_crc_low] at hchanged
    rw [hlast]
    exact ⟨_, execDecode_of_crc_mismatch hchanged hno, rfl, rfl, rfl⟩
  · intro hb
    have hno : ¬ CrcMatches body lo b := fun h => hb ((crcMatches_iff.mp h).2.trans hhi.symm)
    have hchanged := decodeReady_write_rxbuf hr (body.length + 1) b
    rw [set_crc_high] at hchanged
    rw [hlast]
    exact ⟨_, execDecode_of_crc_mismatch hchanged hno, rfl, rfl, rfl⟩

/-! ## The round trip -/

theorem not_wellFormedResponse_nil (f : Byte) : ¬ WellFormedResponse f [] := by
  simp [WellFormedResponse]

/-- Settles O55: DECODE reads the frame that ENCODE left, and its outcome is that of the payload; the frame of an empty
payload is too short to be read. -/
theorem decodeOfEncodeRoundTrip : Obligations.DecodeOfEncodeRoundTrip := by
  intro s t u p hp hx haddr hfunc hrxlen hreads
  rw [exec_encode, execEncode_of_ready hp] at hx
  obtain rfl := Host.Outcome.next.inj hx
  have htxlen := encodeBuild_txlen_eq_length hp
  have hframe := holds_of_same_reads (encodeBuild_holds_frame hp) (htxlen ▸ hreads)
  have ⟨⟨_, _, hf, hplen⟩, hpayload, _⟩ := hp
  have hlen : (frameOf s.addr s.func p).length = u.rxlen.toNat := by rw [hrxlen, htxlen]
  have hrx : p.length + 4 = u.rxlen.toNat := by rw [← hlen, length_frameOf]
  rw [← haddr, ← hfunc] at hframe hlen
  rw [← hfunc] at hf ⊢
  by_cases hne : p = []
  · subst hne
    have hshort : u.rxlen.toNat < 5 := by rw [← hrx]; decide
    have hzero : s.plen = 0x00#8 := BitVec.eq_of_toNat_eq hpayload.symm
    exact ⟨_, execDecode_of_error (decodeError_of_short (isSupportedFunction_iff.mpr hf) hshort),
      fun h => absurd h (not_wellFormedResponse_nil _), fun _ => ⟨rfl, (if_pos hzero).symm⟩⟩
  · have hpos : 0 < p.length := List.length_pos_of_ne_nil hne
    have hr : DecodeReady u (frameOf u.addr u.func p) := ⟨⟨hf, by omega, by omega⟩, hlen, hframe⟩
    have hnonzero : s.plen ≠ 0x00#8 := by
      intro h
      rw [h] at hpayload
      exact absurd hpayload hpos.ne'
    by_cases hwf : WellFormedResponse u.func p
    · obtain ⟨hstatus, hreason, -⟩ := decodeFrame_of_wellFormed hr hwf
      obtain ⟨hview, -⟩ := decodeFrame_views rfl rfl hr hwf
      exact ⟨_, execDecode_of_ready hr, fun _ => ⟨hstatus, hreason, hview⟩, fun h => absurd hwf h⟩
    · exact ⟨_, execDecode_of_not_wellFormed hr hwf, fun h => absurd h hwf, fun _ => ⟨rfl, (if_neg hnonzero).symm⟩⟩

end Sys2Proof.Proofs
end

section
/-! PROOFS. What no error leaves behind: a run past its model fault, and a success past a failed DECODE
(60_exceptions.md rules R172 and R177). -/

namespace Sys2Proof.Proofs

open Sys2Proof.Machine

/-! ## The sticky fault -/

/-- A faulted run is at rest: its next step meets the recorded fault again, and records what is already there. -/
theorem advance_of_recorded_fault {s : State} {f : Fault} (h : s.fault = some f) : advance s = s := by
  rw [advance_of_fault (step_of_fault h), ← h]

/-- Settles O14: a stop is recorded alone, and a state that records one is a fixed point of the run. -/
theorem modelFaultIsSticky : Obligations.ModelFaultIsSticky :=
  ⟨fun _ _ hstep => advance_of_fault hstep,
    fun _ _ n hfault => ⟨step_of_fault hfault, Function.iterate_fixed (advance_of_recorded_fault hfault) n⟩⟩

/-! ## A failed DECODE -/

/-- Settles O56: a check that fails before the frame is read clears NREG and the views, and so does a frame that is not
accepted. -/
theorem failedDecodeIsNeverPartialSuccess : Obligations.FailedDecodeIsNeverPartialSuccess := by
  intro s t hx hfail
  rcases execDecode_next hx with ⟨o, r, -, rfl⟩ | ⟨r, hr, rfl⟩
  · exact ⟨decodeReject_nreg o r s, views_of_not_decoded (decodeReject_decoded o r s)⟩
  · rcases decodeFrame_cases hr with ⟨p, rfl, hp⟩ | ⟨-, hnreg, hdec⟩
    · obtain ⟨hsuccess, -⟩ := decodeFrame_of_wellFormed hr hp
      exact absurd hsuccess hfail
    · exact ⟨hnreg, views_of_not_decoded hdec⟩

end Sys2Proof.Proofs
end

section
/-! PROOFS. Reset (70_reset_and_hazards.md rule R190): the values it gives, that the reset input is always taken, and that
it leaves a legal state. -/

namespace Sys2Proof.Proofs

open Sys2Proof.Machine

/-- The reset input changes nothing right after reset, so what it gives is what `State.reset` holds. -/
theorem resetBlock_reset : resetBlock State.reset = State.reset := rfl

/-- Settles O17: `State.reset` is a state after the reset input too, and that input gives each register its value and
empties both buffers. -/
theorem resetGivesTheTabledValues : Obligations.ResetGivesTheTabledValues := by
  intro t ht
  obtain ⟨s, rfl⟩ : ∃ s, t = resetBlock s := by
    rcases ht with rfl | h
    · exact ⟨State.reset, resetBlock_reset.symm⟩
    · exact h
  simp

/-- Settles O18: the step performs the reset input, which gives the values of R190 and keeps the port's own fields. -/
theorem resetInputIsAlwaysTaken : Obligations.ResetInputIsAlwaysTaken := by
  intro s rest hfault hpending
  have hstep : step s = .next (resetBlock { s with pending := rest }) := step_event hfault hpending
  exact ⟨_, hstep, rfl, by simp [hfault]⟩

/-- Settles O52: the reset input leaves every state legal, and `State.reset` with it. -/
theorem resetIsLegal : Obligations.ResetIsLegal := by
  unfold Obligations.ResetIsLegal
  rw [← resetBlock_reset]
  exact inv_resetBlock State.reset

end Sys2Proof.Proofs
end

section
/-! PROOFS. Accesses outside the register space (20_memory.md section 2): no location of the map answers them. -/

namespace Sys2Proof.Proofs

open Sys2Proof.Machine

theorem hostWrite_outside {off : Nat} (h : 0x400 ≤ off) (v : Byte) (s : State) :
    hostWrite off v s = .fault (.outsideRegisterSpace off) := by
  simp [hostWrite, locate_outside h]

/-- Settles O8: an offset from 0x400 on has no location, so a read and a write both end in the fault that names it. -/
theorem accessOutsideTheSpaceFaults : Obligations.AccessOutsideTheSpaceFaults :=
  fun s _ v hout => ⟨hostRead_outside hout s, hostWrite_outside hout v s⟩

end Sys2Proof.Proofs
end
